-- ==== Sys2Proof/Word.lean ====
section
/-! DEFINITION. The word types of the XRG core (00_scope.md R4, R7; 30_encoding.md R60, R70, R73). -/

namespace Sys2Proof

/-- A u32: every state word, raw draw and seeding intermediate (R4, R7). -/
abbrev Word := BitVec 32

/-- One 72-bit command word, ARG1[71:40] ARG0[39:8] RSV[7:5] BUF[4] OP[3:0] (R60, R61). -/
abbrev CmdWord := BitVec 72

/-- The 64-bit DATA field of a response header (R70). -/
abbrev Data := BitVec 64

end Sys2Proof
end

