-- ==== Sys2Proof/Config.lean ====
section
/-! DEFINITION. What is fixed for the lifetime of a block: the parameter SAMPLE_VARIANT (00_scope.md R5, 10_state.md R25). -/

namespace Sys2Proof

/-- The values of the parameter SAMPLE_VARIANT (R5). -/
inductive SampleVariant where
  | unsignedDiv  -- UNSIGNED_DIV, the source's reference variant (R124)
  | signedMul    -- SIGNED_MUL, the source's alternate variant (R125)
deriving DecidableEq, Repr

/-- This hardware's SAMPLE_VARIANT is UNSIGNED_DIV (R5, R124). The machine also exists with the parameter as an
argument: `Machine.execWith` and `Machine.stepWith` (log entry 8). -/
def Config.sampleVariant : SampleVariant := .unsignedDiv

end Sys2Proof
end

