-- ==== Sys2Proof/Syntax.lean ====
section
/-! DEFINITION. The commands of the XRG command set v1, one constructor per row of spec/opcode_table.json (30_encoding.md R64).
Operands carry the type the spec reads them at (R62): the seed is a u32 bit pattern (it is shifted and xored), a bound is an
int32 number, a fill length is a count. Fields the spec says are ignored (R63) are no part of a command. -/

namespace Sys2Proof

/-- One decoded command. -/
inductive Instr where
  /-- SEED x: initialise the state words from the seed x (R101). -/
  | seed (x : Word)
  /-- NEXT_RAW: the raw u32 draw (R121). -/
  | nextRaw
  /-- NEXT: the low 31 bits of the raw draw (R122). -/
  | next
  /-- SAMPLE: a binary64 sample (R123). -/
  | sample
  /-- NEXT_MAX maxValue (R130). -/
  | nextMax (maxValue : Int)
  /-- NEXT_RANGE minValue, maxValue (R132). -/
  | nextRange (minValue maxValue : Int)
  /-- FILL_INT: `buf` is the BUF flag (is a buffer present), `length` the number of elements L (R160). -/
  | fillInt (buf : Bool) (length : Nat)
  /-- FILL_BYTES: `buf` is the BUF flag, `length` the number of bytes L (R162). -/
  | fillBytes (buf : Bool) (length : Nat)
deriving DecidableEq, Repr

end Sys2Proof
end

