-- ==== Sys2Proof/WellFormed.lean ====
section
/-! DEFINITION. Which commands a command word can carry: every operand fits its 32-bit field at the type of R62. -/

namespace Sys2Proof

/-- `m` is an int32 value (R8, R62). -/
abbrev IsInt32 (m : Int) : Prop := -2 ^ 31 ≤ m ∧ m < 2 ^ 31

/-- `n` is a u32 value (R7, R62): fill lengths run over 0 .. 2^32-1 (R4). -/
abbrev IsU32 (n : Nat) : Prop := n < 2 ^ 32

/-- Every operand fits its field (R62). -/
def Instr.wellFormed : Instr → Bool
  | .seed _ => true
  | .nextRaw => true
  | .next => true
  | .sample => true
  | .nextMax m => decide (IsInt32 m)
  | .nextRange lo hi => decide (IsInt32 lo) && decide (IsInt32 hi)
  | .fillInt _ n => decide (IsU32 n)
  | .fillBytes _ n => decide (IsU32 n)

/-- The commands the encoding can carry. -/
abbrev Instr.WellFormed (i : Instr) : Prop := i.wellFormed = true

end Sys2Proof
end

