-- ==== Sys2Proof/Decode.lean ====
section
/-! DEFINITION. Decoding a 72-bit command word and encoding a command (30_encoding.md R60 to R67, R75). -/

namespace Sys2Proof

/-! ### The fields of a command word (R60) -/

/-- OP, bits 3:0. -/
def cmdOp (w : CmdWord) : BitVec 4 := w.extractLsb' 0 4

/-- BUF, bit 4. -/
def cmdBuf (w : CmdWord) : Bool := w.getLsbD 4

/-- RSV, bits 7:5. -/
def cmdRsv (w : CmdWord) : BitVec 3 := w.extractLsb' 5 3

/-- ARG0, bits 39:8. -/
def cmdArg0 (w : CmdWord) : Word := w.extractLsb' 8 32

/-- ARG1, bits 71:40. -/
def cmdArg1 (w : CmdWord) : Word := w.extractLsb' 40 32

/-- The command word with these fields, `ARG1 : ARG0 : RSV : BUF : OP` (R60). -/
def cmdWord (arg1 arg0 : Word) (rsv : BitVec 3) (buf : Bool) (op : BitVec 4) : CmdWord :=
  arg1 ++ arg0 ++ rsv ++ BitVec.ofBool buf ++ op

/-! ### Decoding -/

/-- Why a command word is illegal (R66, R201): each is a reported ILLEGAL_COMMAND, none stops the machine. -/
inductive DecodeError where
  | reservedOpcode  -- OP is 0x0 or in 0x9..0xF
  | reservedFlags   -- OP is defined, and RSV is not 000, or BUF = 1 on a command that is no fill
deriving DecidableEq, Repr

/-- The detail code of an illegal command (R201). -/
def DecodeError.detail : DecodeError → Nat
  | .reservedOpcode => 1
  | .reservedFlags => 2

/-- Which operation an opcode selects. -/
inductive Opcode where
  | seed | nextRaw | next | sample | nextMax | nextRange | fillInt | fillBytes
deriving DecidableEq, Repr

/-- The opcode map of R64; `none` is a reserved opcode. -/
def opcodeOf (op : BitVec 4) : Option Opcode :=
  match op.toNat with
  | 0x1 => some .seed
  | 0x2 => some .nextRaw
  | 0x3 => some .next
  | 0x4 => some .sample
  | 0x5 => some .nextMax
  | 0x6 => some .nextRange
  | 0x7 => some .fillInt
  | 0x8 => some .fillBytes
  | _ => none

/-- FILL_INT and FILL_BYTES, the commands that have BUF as an operand (R60, R65). -/
def Opcode.isFill : Opcode → Bool
  | .seed => false
  | .nextRaw => false
  | .next => false
  | .sample => false
  | .nextMax => false
  | .nextRange => false
  | .fillInt => true
  | .fillBytes => true

/-- Operand assembly: which fields a command takes and how it reads them (R62, R63). -/
def Opcode.toInstr (o : Opcode) (buf : Bool) (arg0 arg1 : Word) : Instr :=
  match o with
  | .seed => .seed arg0
  | .nextRaw => .nextRaw
  | .next => .next
  | .sample => .sample
  | .nextMax => .nextMax arg0.toInt
  | .nextRange => .nextRange arg0.toInt arg1.toInt
  | .fillInt => .fillInt buf arg0.toNat
  | .fillBytes => .fillBytes buf arg0.toNat

/-- Total decoding of a command word, the cases tested in the order of R66. -/
def decode (w : CmdWord) : Except DecodeError Instr :=
  match opcodeOf (cmdOp w) with
  | none => .error .reservedOpcode
  | some o =>
    if cmdRsv w ≠ 0 ∨ (cmdBuf w = true ∧ o.isFill = false) then .error .reservedFlags
    else .ok (o.toInstr (cmdBuf w) (cmdArg0 w) (cmdArg1 w))

/-! ### The opcode table as mask and match (R65 and the encoding summary of 30_encoding.md section 6) -/

/-- One row of the encoding summary: the masked low byte of a word is compared with `pattern`. -/
structure OpcodeRow where
  opcode  : Opcode
  pattern : BitVec 8
  mask    : BitVec 8
deriving DecidableEq, Repr

/-- The eight rows of the encoding summary. -/
def opcodeTable : List OpcodeRow :=
  [⟨.seed, 0x01, 0xFF⟩, ⟨.nextRaw, 0x02, 0xFF⟩, ⟨.next, 0x03, 0xFF⟩, ⟨.sample, 0x04, 0xFF⟩,
   ⟨.nextMax, 0x05, 0xFF⟩, ⟨.nextRange, 0x06, 0xFF⟩, ⟨.fillInt, 0x07, 0xEF⟩, ⟨.fillBytes, 0x08, 0xEF⟩]

/-- The word matches the row: mask bits 71:8 are 0, so only bits 7:0 are compared (R65). -/
def OpcodeRow.matches (row : OpcodeRow) (w : CmdWord) : Bool :=
  decide (w.extractLsb' 0 8 &&& row.mask = row.pattern)

/-! ### Encoding -/

/-- The operation of a command. -/
def Instr.opcode : Instr → Opcode
  | .seed _ => .seed
  | .nextRaw => .nextRaw
  | .next => .next
  | .sample => .sample
  | .nextMax _ => .nextMax
  | .nextRange _ _ => .nextRange
  | .fillInt _ _ => .fillInt
  | .fillBytes _ _ => .fillBytes

/-- The OP field of a command (R64). -/
def Opcode.code : Opcode → BitVec 4
  | .seed => 0x1
  | .nextRaw => 0x2
  | .next => 0x3
  | .sample => 0x4
  | .nextMax => 0x5
  | .nextRange => 0x6
  | .fillInt => 0x7
  | .fillBytes => 0x8

/-- The word of a command, unspecified fields 0 (R60, R62, R64, R75). -/
def encode : Instr → CmdWord
  | .seed x => cmdWord 0 x 0 false Opcode.seed.code
  | .nextRaw => cmdWord 0 0 0 false Opcode.nextRaw.code
  | .next => cmdWord 0 0 0 false Opcode.next.code
  | .sample => cmdWord 0 0 0 false Opcode.sample.code
  | .nextMax m => cmdWord 0 (BitVec.ofInt 32 m) 0 false Opcode.nextMax.code
  | .nextRange lo hi => cmdWord (BitVec.ofInt 32 hi) (BitVec.ofInt 32 lo) 0 false Opcode.nextRange.code
  | .fillInt buf n => cmdWord 0 (BitVec.ofNat 32 n) 0 buf Opcode.fillInt.code
  | .fillBytes buf n => cmdWord 0 (BitVec.ofNat 32 n) 0 buf Opcode.fillBytes.code

/-- The bits of a command's word that the command depends on: OP, RSV and BUF of every command, and its operand
fields; the other fields are ignored (R62, R63). -/
def Opcode.operandMask (o : Opcode) : CmdWord :=
  match o with
  | .seed => cmdWord 0 (BitVec.allOnes 32) (BitVec.allOnes 3) true 0xF
  | .nextRaw => cmdWord 0 0 (BitVec.allOnes 3) true 0xF
  | .next => cmdWord 0 0 (BitVec.allOnes 3) true 0xF
  | .sample => cmdWord 0 0 (BitVec.allOnes 3) true 0xF
  | .nextMax => cmdWord 0 (BitVec.allOnes 32) (BitVec.allOnes 3) true 0xF
  | .nextRange => cmdWord (BitVec.allOnes 32) (BitVec.allOnes 32) (BitVec.allOnes 3) true 0xF
  | .fillInt => cmdWord 0 (BitVec.allOnes 32) (BitVec.allOnes 3) true 0xF
  | .fillBytes => cmdWord 0 (BitVec.allOnes 32) (BitVec.allOnes 3) true 0xF

/-! ### The host's numbering of an instruction's bits -/

/-- The 72-bit word whose low `nbits` bits are those of `w` and whose other bits are 0. Words are transferred whole
with bit 0 least significant (R6, R46), which is how the opcode table numbers bits: no byte order enters
(log entry 9). -/
def wordOfTable (nbits w : Nat) : CmdWord := BitVec.ofNat 72 (w % 2 ^ nbits)

/-- What the decoder reads from an instruction given by the opcode table's bit numbers; no command is longer than 72
bits (R61). -/
def decodeTableWord (nbits w : Nat) : Option Instr :=
  if nbits ≤ 72 then (decode (wordOfTable nbits w)).toOption else none

end Sys2Proof
end

