-- ==== Sys2Proof/Machine/State.lean ====
section
/-! DEFINITION. The state of the XRG core and of its command port (10_state.md, 20_memory.md section 3, 30_encoding.md
section 4, 70_reset_and_hazards.md section 1). The block has no memory and no program counter (R26, R40). -/

namespace Sys2Proof.Machine

/-! ### The engine -/

/-- The four state words, 128 bits in all (R20). -/
structure Words where
  s0 : Word
  s1 : Word
  s2 : Word
  s3 : Word
deriving DecidableEq, Repr

/-- The all-zero state, which no seeded engine ever holds (R31). -/
def Words.zero : Words := ⟨0, 0, 0, 0⟩

/-! ### Responses -/

/-- The completion status of a command (R71). -/
inductive Status where
  | ok               -- 0, OK
  | invalidArgument  -- 1, INVALID_ARGUMENT
  | notSeeded        -- 2, NOT_SEEDED
  | illegalCommand   -- 3, ILLEGAL_COMMAND
deriving DecidableEq, Repr

/-- The 66-bit response header, by its fields (R70); its bits are `Header.toWord`. -/
structure Header where
  status : Status
  data   : Data
deriving DecidableEq, Repr

/-- One 36-bit beat, by its fields (R73); its bits are `Beat.toWord`. -/
structure Beat where
  be    : BitVec 4
  bdata : BitVec 32
deriving DecidableEq, Repr

/-- A response: one header, then its beats in buffer order (R68, R74). -/
structure Response where
  header : Header
  beats  : List Beat
deriving DecidableEq, Repr

/-! ### The command port and its requesters -/

/-- A command word that a requester has presented and the block has not yet executed (R33, R50). -/
structure Request where
  requester : Nat
  word      : CmdWord
deriving DecidableEq, Repr

/-- A response that has gone back to the requester of its command (R68). -/
structure Delivery where
  requester : Nat
  response  : Response
deriving DecidableEq, Repr

/-- What the outside world does to the block, one event a step (log entry 2). -/
inductive Input where
  /-- A requester presents a command word (R33). -/
  | present (requester : Nat) (word : CmdWord)
  /-- The arbiter takes this requester's oldest outstanding command (R30(b), R51): the order is free. -/
  | grant (requester : Nat)
  /-- The block is reset (R230). -/
  | reset
deriving DecidableEq, Repr

/-! ### The state -/

/-- The state. -/
structure State where
  /-- s0..s3 and SEEDED: `some` words while SEEDED = 1, `none` while SEEDED = 0 (R20, R23, R24; log entry 1). -/
  engine : Option Words
  /-- The response of the command being executed, on its way to the requester; `none` between commands (R27, R29, R68). -/
  response : Option Response
  /-- The commands presented and not yet executed, oldest first (R50, R231 "pending commands"). -/
  pending : List Request
  /-- The responses returned since reset, in the one total order of the commands (R50, R69, R231 "responses"). -/
  delivered : List Delivery
  /-- What the outside world will do next, in order; requesters and arbiter are no part of the core (R30, R33; log entry 2). -/
  inputs : List Input
deriving DecidableEq, Repr

/-- The ways the machine stops with a fault: none. Every error is a status in a response (R200, R208), so no step
faults; the type is closed and empty (log entry 12). -/
inductive Fault where
deriving DecidableEq, Repr

/-- The ways a step has no meaning. -/
inductive Refusal where
  /-- Raised only by an arm of `exec` whose instruction has no meaning yet (none is left). Safe: the machine stops. -/
  | notModelled (mnemonic : String)
deriving DecidableEq, Repr

/-- The machine right after reset (R230, R231): SEEDED = 0, no state word holds a value, no pending command, no
response. The outside world has not acted yet. -/
def State.reset : State where
  engine := none
  response := none
  pending := []
  delivered := []
  inputs := []

end Sys2Proof.Machine
end

