-- ==== Sys2Proof/Machine/Flags.lean ====
section
/-! DEFINITION. The one flag of the block, SEEDED (10_state.md R23, R27). No command sets a carry, overflow, zero or sign
flag, and no arithmetic overflow is detected (R27, R135, R206). -/

namespace Sys2Proof.Machine

/-- SEEDED: 1 exactly when the state words hold a value (R23, R24; log entry 1). -/
def State.seeded (s : State) : Bool := s.engine.isSome

end Sys2Proof.Machine
end

