-- ==== Sys2Proof/Machine/Operands.lean ====
section
/-! DEFINITION. How operands are read and results are widened (00_scope.md R7, R8, R10; 30_encoding.md R62, R72). -/

namespace Sys2Proof.Machine

/-- `s32(v)`, the two's complement reading of a u32 (R8). -/
def s32 (v : Word) : Int := v.toInt

/-- `u32(x)` of an integer, `x mod 2^32` (R7). -/
def u32 (x : Int) : Word := BitVec.ofInt 32 x

/-- `zext_64` of a u32 (R8). -/
def zext64 (v : Word) : Data := v.setWidth 64

/-- `sext_64` of a 32-bit value (R8). -/
def sext64 (v : Word) : Data := v.signExtend 64

/-- The low 31 bits, `raw & 0x7FFFFFFF` (R122, R160). -/
def low31 (raw : Word) : Word := raw &&& 0x7FFFFFFF

/-- The length of a fill as DATA, `zext_64(L)` (R72). -/
def lengthData (n : Nat) : Data := BitVec.ofNat 64 n

end Sys2Proof.Machine
end

