-- ==== Sys2Proof/Machine/Response.lean ====
section
/-! DEFINITION. The bits of a response: the 66-bit header and the 36-bit beats (30_encoding.md R70, R71, R73). -/

namespace Sys2Proof.Machine

/-- The STATUS codes (R71). -/
def Status.code : Status → BitVec 2
  | .ok => 0
  | .invalidArgument => 1
  | .notSeeded => 2
  | .illegalCommand => 3

/-- The status with a given code: all four codes are used (R71). -/
def Status.ofCode (c : BitVec 2) : Status :=
  match c.toNat with
  | 0 => .ok
  | 1 => .invalidArgument
  | 2 => .notSeeded
  | _ => .illegalCommand

/-- STATUS[65:64] DATA[63:0] (R70). -/
def Header.toWord (h : Header) : BitVec 66 := h.status.code ++ h.data

/-- The header a 66-bit word stands for (R70). -/
def Header.ofWord (w : BitVec 66) : Header where
  status := Status.ofCode (w.extractLsb' 64 2)
  data := w.extractLsb' 0 64

/-- BE[35:32] BDATA[31:0] (R73). -/
def Beat.toWord (b : Beat) : BitVec 36 := b.be ++ b.bdata

/-- The beat a 36-bit word stands for (R73). -/
def Beat.ofWord (w : BitVec 36) : Beat where
  be := w.extractLsb' 32 4
  bdata := w.extractLsb' 0 32

/-- Byte lane `k` of a beat, `BDATA[8k+7:8k]` (R73). -/
def Beat.lane (b : Beat) (k : Nat) : BitVec 8 := b.bdata.extractLsb' (8 * k) 8

/-- The number of bytes of a beat that are part of the output: the popcount of BE (R73, R163). -/
def Beat.count (b : Beat) : Nat := (List.range 4).countP fun k => b.be.getLsbD k

/-- The bytes of a beat that are part of the output, byte lane 0 first (R73). -/
def Beat.bytes (b : Beat) : List (BitVec 8) :=
  ((List.range 4).filter fun k => b.be.getLsbD k).map b.lane

end Sys2Proof.Machine
end

