-- ==== Sys2Proof/Machine/Ops.lean ====
section
/-! DEFINITION. The operations every command is made of: the seeding transform and the core transition (40_engine.md),
responding, raising an error, the SEEDED check and a scalar draw (00_scope.md R10, 41_scalar_outputs.md R120,
60_exceptions.md R200 to R205). -/

namespace Sys2Proof.Machine

/-! ### Seeding (40_engine.md section 1) -/

/-- The seeding transform f (R100). -/
def seedTransform (v : Word) : Word := 1812433253#32 * (v ^^^ (v >>> 30)) + 1#32

/-- The state words SEED x leaves: f once, twice, three and four times applied to x (R101). -/
def seedWords (x : Word) : Words :=
  let s0 := seedTransform x
  let s1 := seedTransform s0
  let s2 := seedTransform s1
  let s3 := seedTransform s2
  ⟨s0, s1, s2, s3⟩

/-! ### The core transition (40_engine.md section 2) -/

/-- The new s3 of ADVANCE, which is also the raw draw (R102). -/
def rawDraw (w : Words) : Word :=
  let t := w.s0 ^^^ (w.s0 <<< 11)
  (w.s3 ^^^ (w.s3 >>> 19)) ^^^ (t ^^^ (t >>> 8))

/-- ADVANCE: the state words after one transition (R102). -/
def advance (w : Words) : Words := ⟨w.s1, w.s2, w.s3, rawDraw w⟩

/-- ADVANCE performed `n` times (R103, R104). -/
def advanceN : Nat → Words → Words
  | 0, w => w
  | n + 1, w => advanceN n (advance w)

/-- The raw draws of `n` successive ADVANCEs, the first one first (R160, R162). -/
def rawDraws : Nat → Words → List Word
  | 0, _ => []
  | n + 1, w => rawDraw w :: rawDraws n (advance w)

/-! ### Responding -/

/-- The state with this response produced; nothing else changes (`Respond` and `Emit` of R10). -/
def respond (status : Status) (data : Data) (beats : List Beat) (s : State) : State :=
  { s with response := some ⟨⟨status, data⟩, beats⟩ }

/-- `raise <Status>(detail)`, the block's one way of taking an error: a response with that status and DATA = the
detail code, no beats, and no other state element changed (R10, R200, R204). There is no trap to enter or to return
from (R208, R209). -/
def raise (status : Status) (detail : Nat) (s : State) : State :=
  respond status (BitVec.ofNat 64 detail) [] s

/-- INVALID_ARGUMENT detail: a fill without a buffer (R203). -/
def bufferAbsent : Nat := 1

/-- INVALID_ARGUMENT detail: NEXT_RANGE with maxValue < minValue (R203). -/
def rangeInverted : Nat := 2

/-- INVALID_ARGUMENT detail: NEXT_MAX with maxValue < -1 (R203). -/
def maxBelowMinusOne : Nat := 3

/-! ### The checks and the body of a draw command -/

/-- The first check of every draw command: NOT_SEEDED with detail 0 while SEEDED = 0; otherwise the command goes on
with the state words (R23, R120, R202). -/
def whenSeeded (s : State) (body : Words → State) : State :=
  match s.engine with
  | none => raise .notSeeded 0 s
  | some w => body w

/-- The second check of a draw command, its own argument check if it has one (R120, R203, R205). -/
def whenValid (valid : Bool) (detail : Nat) (s : State) (body : State) : State :=
  if valid then body else raise .invalidArgument detail s

/-- The body of a scalar draw: one ADVANCE, then OK with DATA made from the raw draw (R103, R121 to R132). -/
def scalarDraw (w : Words) (data : Word → Data) (s : State) : State :=
  respond .ok (data (rawDraw w)) [] { s with engine := some (advance w) }

/-- The body of a fill: `groups` ADVANCEs, then OK with DATA = the length and the beats made from the raw draws, in
buffer order (R103, R160, R162). -/
def fillDraw (w : Words) (groups length : Nat) (beats : List Word → List Beat) (s : State) : State :=
  respond .ok (lengthData length) (beats (rawDraws groups w)) { s with engine := some (advanceN groups w) }

end Sys2Proof.Machine
end

