-- ==== Sys2Proof/Machine/Fill.lean ====
section
/-! DEFINITION. The two fill commands: FILL_INT and FILL_BYTES (42_fill_outputs.md). -/

namespace Sys2Proof.Machine

/-- The beats of FILL_INT: one element a raw draw, its low 31 bits, all lanes enabled (R160). -/
def intBeats (raws : List Word) : List Beat := raws.map fun raw => ⟨0xF, low31 raw⟩

/-- FILL_INT: `n` elements, one ADVANCE each (R160). -/
def execFillInt (buf : Bool) (n : Nat) (s : State) : Host.Outcome State Fault Refusal :=
  .next (whenSeeded s fun w => whenValid buf bufferAbsent s (fillDraw w n n intBeats s))

/-- `G = ceil(L / 4)`, the groups of up to 4 bytes (R162). -/
def byteGroups (n : Nat) : Nat := (n + 3) / 4

/-- `k`, the bytes used from the raw draw of group `j`: 4, but for a partial last group (R162). -/
def groupBytes (n j : Nat) : Nat := if j + 1 = byteGroups n ∧ n % 4 ≠ 0 then n % 4 else 4

/-- `(1 << k) - 1`, the byte enables of `k` bytes (R162). -/
def byteEnables (k : Nat) : BitVec 4 := BitVec.ofNat 4 (2 ^ k - 1)

/-- `MASK(k)`, the low 8k bits (R162). -/
def byteMask (k : Nat) : Word := BitVec.ofNat 32 (2 ^ (8 * k) - 1)

/-- The beat of group `j` of a fill of `n` bytes: disabled lanes carry 0 (R73, R162). -/
def byteBeat (n j : Nat) (raw : Word) : Beat :=
  ⟨byteEnables (groupBytes n j), raw &&& byteMask (groupBytes n j)⟩

/-- The beats of FILL_BYTES: one group of up to 4 bytes a raw draw, least significant byte first (R44, R162). -/
def byteBeats (n : Nat) (raws : List Word) : List Beat := raws.mapIdx (byteBeat n)

/-- FILL_BYTES: `n` bytes, one ADVANCE per group of 4, a partial group one more (R162). -/
def execFillBytes (buf : Bool) (n : Nat) (s : State) : Host.Outcome State Fault Refusal :=
  .next (whenSeeded s fun w => whenValid buf bufferAbsent s (fillDraw w (byteGroups n) n (byteBeats n) s))

end Sys2Proof.Machine
end

