-- ==== Sys2Proof/Machine/Float.lean ====
section
/-! DEFINITION. Binary64 arithmetic on integers and dyadic numbers: RNE64, bits64, the two SAMPLE formulas and BOUNDED
(00_scope.md R9; 41_scalar_outputs.md R124 to R128). -/

namespace Sys2Proof.Machine

/-- `bitlength(p)`, the number of binary digits of p (R128). -/
def bitLength (p : Nat) : Nat := if p = 0 then 0 else p.log2 + 1

/-- `RNE53` of R128: p rounded to 53 significant bits, to nearest, ties to the even significand. -/
def rne53 (p : Nat) : Nat :=
  if p < 2 ^ 53 then p
  else
    let e := bitLength p - 53
    let h := p >>> e
    let rem := p - (h <<< e)
    let half := 1 <<< (e - 1)
    let h' := if half < rem ∨ (rem = half ∧ h % 2 = 1) then h + 1 else h
    h' <<< e

/-- `RNE64` of an integer below the overflow threshold (R9), by the integer form of R128. -/
def rne64 (p : Int) : Int := if 0 ≤ p then (rne53 p.toNat : Int) else -(rne53 (-p).toNat : Int)

/-- `bits64` of the number `p * 2^e` for a `p` that RNE64 leaves unchanged, in the normal range of binary64: sign
bit 63, exponent bits 62:52 biased by 1023, fraction bits 51:0 (R9; 93_implementation_defined.md G3, log entry 7). Zero is +0. -/
def bits64 (p e : Int) : Data :=
  if p = 0 then 0
  else
    let m := p.natAbs
    let n := bitLength m
    let exponent := (e + n + 1022).toNat
    let significand := if n ≤ 53 then m <<< (53 - n) else m >>> (n - 53)
    BitVec.ofBool (decide (p < 0)) ++ BitVec.ofNat 11 exponent ++ BitVec.ofNat 52 significand

/-- `SAMPLE_U(raw) = raw / 2^32`, exact, as its encoding (R124). -/
def sampleU (raw : Word) : Data := bits64 raw.toNat (-32)

/-- `SAMPLE_S(raw) = RNE64(s32(raw) * K)` with K = 2^-31 + 2^-62 = (2^31 + 1) * 2^-62, as its encoding, by the integer
form of R125: one rounding of the exact product, then an exact scaling. -/
def sampleS (raw : Word) : Data := bits64 (rne64 (s32 raw * (2 ^ 31 + 1))) (-62)

/-- The SAMPLE formula that SAMPLE_VARIANT selects (R123). -/
def sampleBits (v : SampleVariant) (raw : Word) : Data :=
  match v with
  | .unsignedDiv => sampleU raw
  | .signedMul => sampleS raw

/-- `BOUNDED(raw, n)`: the exact product, rounded once to binary64, scaled by 2^-32 and floored (R127, R128). -/
def bounded (raw : Word) (n : Int) : Int := rne64 ((raw.toNat : Int) * n) / 2 ^ 32

/-! ### What an encoding stands for -/

/-- The number a finite binary64 encoding stands for (R9, G3). -/
def value64 (b : Data) : ℚ :=
  let fraction : ℚ := ((b.extractLsb' 0 52).toNat : ℚ)
  let exponent : Int := ((b.extractLsb' 52 11).toNat : Int)
  let magnitude : ℚ := if exponent = 0 then fraction * 2 ^ (-1074 : Int) else (2 ^ 52 + fraction) * 2 ^ (exponent - 1075)
  if b.getLsbD 63 then -magnitude else magnitude

end Sys2Proof.Machine
end

