-- ==== Sys2Proof/Machine/Scalar.lean ====
section
/-! DEFINITION. The five scalar draw commands: NEXT_RAW, NEXT, SAMPLE, NEXT_MAX, NEXT_RANGE (41_scalar_outputs.md). -/

namespace Sys2Proof.Machine

/-- NEXT_RAW: the raw draw (R121). -/
def execNextRaw (s : State) : Host.Outcome State Fault Refusal :=
  .next (whenSeeded s fun w => scalarDraw w zext64 s)

/-- NEXT: the low 31 bits of the raw draw (R122). -/
def execNext (s : State) : Host.Outcome State Fault Refusal :=
  .next (whenSeeded s fun w => scalarDraw w (fun raw => zext64 (low31 raw)) s)

/-- SAMPLE under a given SAMPLE_VARIANT (R123). -/
def execSampleAs (v : SampleVariant) (s : State) : Host.Outcome State Fault Refusal :=
  .next (whenSeeded s fun w => scalarDraw w (sampleBits v) s)

/-- SAMPLE of this hardware (R5, R123). -/
def execSample (s : State) : Host.Outcome State Fault Refusal := execSampleAs Config.sampleVariant s

/-- The argument check of NEXT_MAX: `m >= -1` (R130). -/
def nextMaxValid (m : Int) : Bool := decide (-1 ≤ m)

/-- The scale of NEXT_MAX, `s32(u32(m + 1))`: m = 2^31-1 wraps to -2^31 (R130). -/
def nextMaxScale (m : Int) : Int := s32 (u32 (m + 1))

/-- NEXT_MAX m (R130). -/
def execNextMax (m : Int) (s : State) : Host.Outcome State Fault Refusal :=
  .next (whenSeeded s fun w => whenValid (nextMaxValid m) maxBelowMinusOne s
    (scalarDraw w (fun raw => sext64 (u32 (bounded raw (nextMaxScale m)))) s))

/-- The argument check of NEXT_RANGE: not `hi < lo` (R132). -/
def nextRangeValid (lo hi : Int) : Bool := decide (lo ≤ hi)

/-- The scale of NEXT_RANGE, `hi - lo + 1`, exact (R132). -/
def nextRangeScale (lo hi : Int) : Int := hi - lo + 1

/-- NEXT_RANGE lo, hi (R132). -/
def execNextRange (lo hi : Int) (s : State) : Host.Outcome State Fault Refusal :=
  .next (whenSeeded s fun w => whenValid (nextRangeValid lo hi) rangeInverted s
    (scalarDraw w (fun raw => sext64 (u32 (lo + bounded raw (nextRangeScale lo hi)))) s))

end Sys2Proof.Machine
end

