-- ==== Sys2Proof/Machine/Seeding.lean ====
section
/-! DEFINITION. SEED (40_engine.md R101). -/

namespace Sys2Proof.Machine

/-- SEED x: every seed is valid, whether or not the block is seeded; the previous state words are discarded (R101). -/
def execSeed (x : Word) (s : State) : Host.Outcome State Fault Refusal :=
  .next (respond .ok 0 [] { s with engine := some (seedWords x) })

end Sys2Proof.Machine
end

