-- ==== Sys2Proof/Machine/Dispatch.lean ====
section
/-! DEFINITION. What each command does: one arm per constructor of Instr (30_encoding.md R64). -/

namespace Sys2Proof.Machine

def exec (i : Instr) (s : State) : Host.Outcome State Fault Refusal :=
  match i with
  | .seed x => Sys2Proof.Machine.execSeed x s
  | .nextRaw => Sys2Proof.Machine.execNextRaw s
  | .next => Sys2Proof.Machine.execNext s
  | .sample => Sys2Proof.Machine.execSample s
  | .nextMax m => Sys2Proof.Machine.execNextMax m s
  | .nextRange lo hi => Sys2Proof.Machine.execNextRange lo hi s
  | .fillInt buf n => Sys2Proof.Machine.execFillInt buf n s
  | .fillBytes buf n => Sys2Proof.Machine.execFillBytes buf n s

end Sys2Proof.Machine
end

