-- ==== Sys2Proof/Machine/Variant.lean ====
section
/-! DEFINITION. The commands with SAMPLE_VARIANT as an argument (00_scope.md R5, 10_state.md R25). -/

namespace Sys2Proof.Machine

/-- A command on a block whose SAMPLE_VARIANT is `v`: only SAMPLE reads the parameter (R25, R123, R134). -/
def execWith (v : SampleVariant) (i : Instr) (s : State) : Host.Outcome State Fault Refusal :=
  match i with
  | .seed x => exec (.seed x) s
  | .nextRaw => exec .nextRaw s
  | .next => exec .next s
  | .sample => execSampleAs v s
  | .nextMax m => exec (.nextMax m) s
  | .nextRange lo hi => exec (.nextRange lo hi) s
  | .fillInt buf n => exec (.fillInt buf n) s
  | .fillBytes buf n => exec (.fillBytes buf n) s

end Sys2Proof.Machine
end

