-- ==== Sys2Proof/Machine/Port.lean ====
section
/-! DEFINITION. The command port: taking a requester's command, decoding and executing it, and returning its response
(20_memory.md section 3; 30_encoding.md R66 to R69; 70_reset_and_hazards.md R230). -/

namespace Sys2Proof.Machine

/-- Take the oldest outstanding command of a requester: a requester's commands are executed in the order it issued them
(R50). `none` when it has none outstanding. -/
def takeRequest (requester : Nat) : List Request → Option (CmdWord × List Request)
  | [] => none
  | q :: qs =>
    if q.requester = requester then some (q.word, qs)
    else
      match takeRequest requester qs with
      | none => none
      | some (w, rest) => some (w, q :: rest)

/-- Execute one command word. Every word has one outcome: its command, or ILLEGAL_COMMAND with the detail of R201, which
changes no state (R66, R67). -/
def runWord (v : SampleVariant) (w : CmdWord) (s : State) : Host.Outcome State Fault Refusal :=
  match decode w with
  | .ok i => execWith v i s
  | .error e => .next (raise .illegalCommand e.detail s)

/-- Return the response of the command just executed to its requester; nothing of it is kept (R27, R68, R69). -/
def returnResponse (requester : Nat) (s : State) : State :=
  match s.response with
  | none => s
  | some r => { s with response := none, delivered := s.delivered ++ [⟨requester, r⟩] }

/-- The step after a command: its response goes back to the requester. -/
def finishCommand (requester : Nat) : Host.Outcome State Fault Refusal → Host.Outcome State Fault Refusal
  | .next s => .next (returnResponse requester s)
  | .fault r => .fault r
  | .refused r => .refused r

/-- The arbiter grants the port to a requester: its oldest outstanding command is executed whole and answered (R47, R50,
R68). A grant to a requester with nothing outstanding executes nothing (log entry 3). -/
def grant (v : SampleVariant) (requester : Nat) (s : State) : Host.Outcome State Fault Refusal :=
  match takeRequest requester s.pending with
  | none => .next s
  | some (w, rest) => finishCommand requester (runWord v w { s with pending := rest })

/-- A requester presents a command word: it waits behind the requester's earlier ones (R33, R50). -/
def present (requester : Nat) (w : CmdWord) (s : State) : State :=
  { s with pending := s.pending ++ [⟨requester, w⟩] }

/-- Reset while the machine runs: every element at its reset value, commands not yet executed discarded without a
response (R230, R231). What the outside world does next is no state of the block and is left as it is (log entry 6). -/
def resetBlock (s : State) : State := { State.reset with inputs := s.inputs }

/-- One event of the outside world. -/
def accept (v : SampleVariant) (e : Input) (s : State) : Host.Outcome State Fault Refusal :=
  match e with
  | .present r w => .next (present r w s)
  | .grant r => grant v r s
  | .reset => .next (resetBlock s)

end Sys2Proof.Machine
end

