-- ==== Sys2Proof/Machine/Step.lean ====
section
/-! DEFINITION. One step of the machine: one event of the outside world; without one, the block waits (20_memory.md R50,
70_reset_and_hazards.md R237). -/

namespace Sys2Proof.Machine

/-- One step of a block whose SAMPLE_VARIANT is `v` (R25). -/
def stepWith (v : SampleVariant) (s : State) : Host.Outcome State Fault Refusal :=
  match s.inputs with
  | [] => .next s
  | e :: rest => accept v e { s with inputs := rest }

/-- One step of this hardware (R5). -/
def step (s : State) : Host.Outcome State Fault Refusal := stepWith Config.sampleVariant s

/-- `s` with this command word outstanding as requester 0's oldest, and the port granted to requester 0 next, so that the
very next step executes it (log entry 4). -/
def State.withFetchWord (s : State) (nbits w : Nat) : State :=
  { s with pending := ⟨0, wordOfTable nbits w⟩ :: s.pending, inputs := .grant 0 :: s.inputs }

end Sys2Proof.Machine
end

