-- ==== Sys2Proof/Machine/Assembler.lean ====
section
/-! DEFINITION. The textual form of a command: one command per line (30_encoding.md R75). A line is a list of characters;
a line that does not have the form of R75, or an operand that does not fit its field, assembles to nothing (log entry 11). -/

namespace Sys2Proof.Machine

/-- The value of a hexadecimal digit. -/
def hexDigit (c : Char) : Option Nat :=
  let n := c.toNat
  if 48 ≤ n ∧ n ≤ 57 then some (n - 48)
  else if 65 ≤ n ∧ n ≤ 70 then some (n - 55)
  else if 97 ≤ n ∧ n ≤ 102 then some (n - 87)
  else none

/-- The number written by the digits in a base, `_` separators skipped (R6), starting from `acc`. -/
def digitsFrom (base : Nat) : Nat → List Char → Option Nat
  | acc, [] => some acc
  | acc, c :: cs =>
    if c = '_' then digitsFrom base acc cs
    else
      match hexDigit c with
      | none => none
      | some d => if d < base then digitsFrom base (base * acc + d) cs else none

/-- A number needs at least one digit, first. -/
def digits (base : Nat) (cs : List Char) : Option Nat :=
  match cs with
  | [] => none
  | '_' :: _ => none
  | _ :: _ => digitsFrom base 0 cs

/-- A numeric operand: decimal, a negative decimal as its 32-bit two's complement, or `0x` and the bit pattern itself
(R75). -/
def operandWord (cs : List Char) : Option Word :=
  match cs with
  | '0' :: 'x' :: hex =>
    match digits 16 hex with
    | none => none
    | some n => if n < 2 ^ 32 then some (BitVec.ofNat 32 n) else none
  | '-' :: dec =>
    match digits 10 dec with
    | none => none
    | some n => if n ≤ 2 ^ 31 then some (BitVec.ofInt 32 (-n)) else none
  | dec =>
    match digits 10 dec with
    | none => none
    | some n => if n < 2 ^ 32 then some (BitVec.ofNat 32 n) else none

/-- The operand of `.word`: the raw 72-bit word as written (R75). -/
def rawWord (cs : List Char) : Option CmdWord :=
  match cs with
  | '0' :: 'x' :: hex =>
    match digits 16 hex with
    | none => none
    | some n => if n < 2 ^ 72 then some (BitVec.ofNat 72 n) else none
  | _ => none

/-- A space or a tab. -/
def isBlank (c : Char) : Bool := c = ' ' || c = '\t'

/-- The text without the blanks at its two ends. -/
def trimBlanks (cs : List Char) : List Char := ((cs.dropWhile isBlank).reverse.dropWhile isBlank).reverse

/-- The parts of a text between its commas. -/
def splitCommas : List Char → List (List Char)
  | [] => [[]]
  | c :: cs =>
    if c = ',' then [] :: splitCommas cs
    else
      match splitCommas cs with
      | [] => [[c]]
      | part :: parts => (c :: part) :: parts

/-- The mnemonics of R75 that name a command. -/
def mnemonicOf (cs : List Char) : Option Opcode :=
  if cs = ['S', 'E', 'E', 'D'] then some .seed
  else if cs = ['N', 'E', 'X', 'T', '_', 'R', 'A', 'W'] then some .nextRaw
  else if cs = ['N', 'E', 'X', 'T'] then some .next
  else if cs = ['S', 'A', 'M', 'P', 'L', 'E'] then some .sample
  else if cs = ['N', 'E', 'X', 'T', '_', 'M', 'A', 'X'] then some .nextMax
  else if cs = ['N', 'E', 'X', 'T', '_', 'R', 'A', 'N', 'G', 'E'] then some .nextRange
  else if cs = ['F', 'I', 'L', 'L', '_', 'I', 'N', 'T'] then some .fillInt
  else if cs = ['F', 'I', 'L', 'L', '_', 'B', 'Y', 'T', 'E', 'S'] then some .fillBytes
  else none

/-- The word of a command from its operand texts, the fields each row of R75 gives; unspecified fields are 0. -/
def assembleCommand (o : Opcode) (operands : List (List Char)) : Option CmdWord :=
  match o, operands with
  | .seed, [x] => (operandWord x).map fun a => cmdWord 0 a 0 false o.code
  | .nextRaw, [] => some (cmdWord 0 0 0 false o.code)
  | .next, [] => some (cmdWord 0 0 0 false o.code)
  | .sample, [] => some (cmdWord 0 0 0 false o.code)
  | .nextMax, [m] => (operandWord m).map fun a => cmdWord 0 a 0 false o.code
  | .nextRange, [lo, hi] =>
    match operandWord lo, operandWord hi with
    | some a, some b => some (cmdWord b a 0 false o.code)
    | _, _ => none
  | .fillInt, [n] =>
    if n = ['n', 'u', 'l', 'l'] then some (cmdWord 0 0 0 false o.code)
    else (operandWord n).map fun a => cmdWord 0 a 0 true o.code
  | .fillBytes, [n] =>
    if n = ['n', 'u', 'l', 'l'] then some (cmdWord 0 0 0 false o.code)
    else (operandWord n).map fun a => cmdWord 0 a 0 true o.code
  | _, _ => none

/-- One line of a program: `;` starts a comment, the mnemonic stands first, operands are separated by commas (R75). -/
def assembleLine (line : List Char) : Option CmdWord :=
  let text := trimBlanks (line.takeWhile fun c => c != ';')
  let name := text.takeWhile fun c => !isBlank c
  let rest := trimBlanks (text.dropWhile fun c => !isBlank c)
  let operands := if rest = [] then [] else (splitCommas rest).map trimBlanks
  if name = ['.', 'w', 'o', 'r', 'd'] then
    match operands with
    | [x] => rawWord x
    | _ => none
  else
    match mnemonicOf name with
    | none => none
    | some o => assembleCommand o operands

end Sys2Proof.Machine
end

