-- ==== Sys2Proof/Safety.lean ====
section
/-! DEFINITION. The terms claims are stated in: safe steps and runs, what one command does to the engine alone, the serial
execution of a list of commands, the rounding of 00_scope.md R9 as a property of numbers, and the machine's invariants. -/

namespace Sys2Proof.Machine

/-! ### Safe steps and runs -/

/-- The step goes on. Every step of this block is to be safe: no error stops it (R200, R208, R216). -/
abbrev Safe (o : Host.Outcome State Fault Refusal) : Prop := ∃ t, o = .next t

/-- `k` steps of a block whose SAMPLE_VARIANT is `v`. -/
def runWith (v : SampleVariant) : Nat → State → Host.Outcome State Fault Refusal
  | 0, s => .next s
  | k + 1, s =>
    match stepWith v s with
    | .next t => runWith v k t
    | .fault r => .fault r
    | .refused r => .refused r

/-! ### Commands as functions of the engine -/

/-- What one command word does to the state words, and the response it produces, from the state words alone (R32). -/
def commandEffect (v : SampleVariant) (w : CmdWord) (engine : Option Words) : Option Words × Option Response :=
  match runWord v w { State.reset with engine := engine } with
  | .next t => (t.engine, t.response)
  | .fault _ => (engine, none)
  | .refused _ => (engine, none)

/-- The commands of a list executed one after the other: the state words they leave and their responses, each to its
requester (R50, R68, R69). -/
def serveAll (v : SampleVariant) : List Request → Option Words → Option Words × List Delivery
  | [], engine => (engine, [])
  | q :: qs, engine =>
    let first := commandEffect v q.word engine
    let later := serveAll v qs first.1
    (later.1, first.2.toList.map (Delivery.mk q.requester) ++ later.2)

/-- The commands a list of events presents, in order. -/
def presented (inputs : List Input) : List Request :=
  inputs.filterMap fun e =>
    match e with
    | .present r w => some ⟨r, w⟩
    | .grant _ => none
    | .reset => none

/-- One requester's stream of commands, in its issue order (R50). -/
def streamOf (requester : Nat) (qs : List Request) : List Request := qs.filter fun q => q.requester = requester

/-! ### Sequences of draws -/

/-- A draw command: any command but SEED (00_scope.md section 4). -/
def isDraw : Instr → Bool
  | .seed _ => false
  | .nextRaw => true
  | .next => true
  | .sample => true
  | .nextMax _ => true
  | .nextRange _ _ => true
  | .fillInt _ _ => true
  | .fillBytes _ _ => true

/-- The units of output of a command, and so its ADVANCEs when it succeeds (R103, R165). -/
def drawUnits : Instr → Nat
  | .seed _ => 0
  | .nextRaw => 1
  | .next => 1
  | .sample => 1
  | .nextMax _ => 1
  | .nextRange _ _ => 1
  | .fillInt _ n => n
  | .fillBytes _ n => (n + 3) / 4

/-- The detail of the INVALID_ARGUMENT condition a command meets, if it meets one: the table of R203. -/
def argumentError : Instr → Option Nat
  | .seed _ => none
  | .nextRaw => none
  | .next => none
  | .sample => none
  | .nextMax m => if m < -1 then some 3 else none
  | .nextRange lo hi => if hi < lo then some 2 else none
  | .fillInt buf _ => if buf then none else some 1
  | .fillBytes buf _ => if buf then none else some 1

/-- The state's response has STATUS = OK. -/
def respondedOk (s : State) : Bool :=
  match s.response with
  | none => false
  | some r => decide (r.header.status = .ok)

/-- The state after a sequence of commands, if every one of them succeeds (R104). -/
def execAllOk (v : SampleVariant) : List Instr → State → Option State
  | [], s => some s
  | i :: is, s =>
    match execWith v i s with
    | .next t => if respondedOk t then execAllOk v is t else none
    | .fault _ => none
    | .refused _ => none

/-! ### Binary64 as a set of numbers (R9) -/

/-- `x` is the value of a finite binary64 number: a 53-bit signed significand times a power of two in range. -/
def IsBinary64 (x : ℚ) : Prop := ∃ m k : ℤ, |m| < 2 ^ 53 ∧ -1074 ≤ k ∧ k ≤ 971 ∧ x = m * 2 ^ k

/-- `q` is RNE64(x): a binary64 value, none is nearer to x, and where another is equally near, the least significant bit
of q's significand is 0 (R9). -/
structure IsRne64 (x q : ℚ) : Prop where
  binary64 : IsBinary64 q
  nearest : ∀ y, IsBinary64 y → |x - q| ≤ |x - y|
  tiesToEven : ∀ y, IsBinary64 y → y ≠ q → |x - y| = |x - q| →
    ∃ m k : ℤ, 2 ^ 52 ≤ |m| ∧ |m| < 2 ^ 53 ∧ Even m ∧ q = m * 2 ^ k

/-! ### Invariants -/

/-- While SEEDED = 1 the state words are not all zero (R31). -/
def EngineNotAllZero (s : State) : Prop := ∀ w, s.engine = some w → w ≠ Words.zero

/-- A beat's disabled lanes carry 0, and its enabled lanes are the lowest 1, 2, 3 or 4 (R73, R163). -/
def Beat.WellFormed (b : Beat) : Prop :=
  (b.be = 0x1 ∨ b.be = 0x3 ∨ b.be = 0x7 ∨ b.be = 0xF) ∧ ∀ k, k < 4 → b.be.getLsbD k = false → b.lane k = 0

/-- What a success may carry (R68, R72, R74): a scalar result or an empty fill, without beats (a u32 zero-extended, an int32
sign-extended, or a SAMPLE encoding of the block's SAMPLE_VARIANT); the beats of FILL_INT, DATA of them, all lanes enabled
and bit 31 clear (R160); or the beats of FILL_BYTES, whose enabled lanes add up to DATA (R163). A length is a u32 (R62). -/
def Response.IsSuccess (v : SampleVariant) (r : Response) : Prop :=
  (r.beats = [] ∧ ∃ x : Word, r.header.data = zext64 x ∨ r.header.data = sext64 x ∨ r.header.data = sampleBits v x) ∨
  (r.header.data.toNat < 2 ^ 32 ∧ r.header.data.toNat = r.beats.length ∧
    ∀ b ∈ r.beats, b.be = 0xF ∧ b.bdata.getLsbD 31 = false) ∨
  (r.header.data.toNat < 2 ^ 32 ∧ r.header.data.toNat = (r.beats.map Beat.count).sum)

/-- A response of a form the spec gives some command: an error has no beats and a detail code of its status (R74, R201 to
R203); the DATA and the beats of a success fit together (R72, R74); only the last beat of a fill may have fewer than four
bytes (R74). -/
def Response.WellFormed (v : SampleVariant) (r : Response) : Prop :=
  (∀ b ∈ r.beats, b.WellFormed) ∧ (∀ b ∈ r.beats.dropLast, b.be = 0xF) ∧
  match r.header.status with
  | .ok => r.IsSuccess v
  | .invalidArgument => r.beats = [] ∧ (r.header.data = 1 ∨ r.header.data = 2 ∨ r.header.data = 3)
  | .notSeeded => r.beats = [] ∧ r.header.data = 0
  | .illegalCommand => r.beats = [] ∧ (r.header.data = 1 ∨ r.header.data = 2)

/-- No response is held between commands, and every response returned has a form the spec gives some command of a block
whose SAMPLE_VARIANT is `v` (R27, R72, R74). -/
def ResponsesWellFormed (v : SampleVariant) (s : State) : Prop :=
  s.response = none ∧ ∀ d ∈ s.delivered, d.response.WellFormed v

end Sys2Proof.Machine
end

