-- ==== Sys2Proof/Certificates/Slice0/Obligations.lean ====
section
/-! DEFINITION. The statements for the provers. Each docstring names the rule of spec/ it formalises. A statement of a
command's effect gives the WHOLE next state (`{ s with … }`), and so its frame: pending commands, delivered responses and
inputs are unchanged, and the state words are unchanged unless they are listed. The block has no memory, no program counter
and no other register (R20, R26 to R29, R40). -/

open Sys2Proof Sys2Proof.Machine

/-! ### Reset and the seeded flag -/

/-- R231: the reset value of every element. -/
def Obligations.ResetHoldsNoValueAndNoCommand : Prop :=
  State.reset.engine = none ∧ State.reset.seeded = false ∧ State.reset.pending = [] ∧ State.reset.delivered = [] ∧
  State.reset.response = none

/-- R230: reset while the machine runs (an event of `inputs`, log entry 2). It writes SEEDED = 0, leaves no state word a
value, discards every pending command and produces no response; then every draw command answers NOT_SEEDED and leaves the
block unseeded, and commands are accepted (SEED completes). -/
def Obligations.ResetDiscardsCommandsAndUnseeds : Prop :=
  (∀ (v : SampleVariant) (s : State) (rest : List Input), s.inputs = .reset :: rest →
    ∃ t, stepWith v s = .next t ∧ t.seeded = false ∧ t.engine = none ∧ t.pending = [] ∧ t.response = none ∧
      ∀ d ∈ t.delivered, d ∈ s.delivered) ∧
  (∀ (v : SampleVariant) (i : Instr) (s : State), s.seeded = false → isDraw i = true →
    execWith v i s = .next { s with response := some ⟨⟨.notSeeded, 0⟩, []⟩ }) ∧
  ∀ (x : Word) (s : State), s.seeded = false → ∃ t, exec (.seed x) s = .next t ∧ t.seeded = true

/-- R202: NOT_SEEDED, detail 0, from every draw command while SEEDED = 0, and never from SEED. -/
def Obligations.DrawsBeforeSeedAnswerNotSeeded : Prop :=
  (∀ (v : SampleVariant) (i : Instr) (s : State), s.engine = none → isDraw i = true →
    execWith v i s = .next { s with response := some ⟨⟨.notSeeded, 0⟩, []⟩ }) ∧
  ∀ (v : SampleVariant) (x : Word) (s : State),
    ∃ t r, execWith v (.seed x) s = .next t ∧ t.response = some r ∧ r.header.status ≠ .notSeeded

/-- R23 (who writes SEEDED): over every step, SEEDED turns 1 only by executing a SEED, and turns 0 only by a reset. -/
def Obligations.OnlySeedSetsAndOnlyResetClearsSeeded : Prop :=
  ∀ (v : SampleVariant) (s t : State), stepWith v s = .next t →
    (s.seeded = false → t.seeded = true →
      ∃ r rest w qs x, s.inputs = .grant r :: rest ∧ takeRequest r s.pending = some (w, qs) ∧ decode w = .ok (.seed x)) ∧
    (s.seeded = true → t.seeded = false → ∃ rest, s.inputs = .reset :: rest)

/-! ### Seeding and the core transition -/

/-- R100: the seeding transform, in arithmetic mod 2^32. -/
def Obligations.SeedTransformArithmetic : Prop :=
  ∀ v : Word, (seedTransform v).toNat = (1812433253 * (v.toNat ^^^ (v.toNat / 2 ^ 30)) + 1) % 2 ^ 32

/-- R101: SEED, with its encoding, its corner cases and its worked example. It completes in every state. -/
def Obligations.SeedWritesAllFourWords : Prop :=
  (∀ w : CmdWord, w.extractLsb' 0 8 = 0x01 → decode w = .ok (.seed (w.extractLsb' 8 32))) ∧
  (∀ (x : Word) (s : State),
    exec (.seed x) s = .next { s with
      engine := some ⟨seedTransform x, seedTransform (seedTransform x), seedTransform (seedTransform (seedTransform x)),
        seedTransform (seedTransform (seedTransform (seedTransform x)))⟩
      response := some ⟨⟨.ok, 0⟩, []⟩ }) ∧
  seedTransform 0 = 1 ∧ seedTransform 0x69C77F92 = 0 ∧
  seedWords 0x69C77F92 = ⟨0x00000000, 0x00000001, 0x6C078966, 0xDD5254A4⟩ ∧
  seedWords 0 = ⟨0x00000001, 0x6C078966, 0xDD5254A4, 0x2559C4E4⟩

/-- R102: ADVANCE as a function of the four words, with its worked example. -/
def Obligations.AdvanceShiftsInTheRawDraw : Prop :=
  (∀ s0 s1 s2 s3 : Word,
    advance ⟨s0, s1, s2, s3⟩ = ⟨s1, s2, s3, rawDraw ⟨s0, s1, s2, s3⟩⟩ ∧
    rawDraw ⟨s0, s1, s2, s3⟩ =
      (s3 ^^^ (s3 >>> 19)) ^^^ ((s0 ^^^ (s0 <<< 11)) ^^^ ((s0 ^^^ (s0 <<< 11)) >>> 8))) ∧
  rawDraw ⟨0x00000001, 0x6C078966, 0xDD5254A4, 0x2559C4E4⟩ = 0x2559C846

/-- R106: f is a bijection with the inverse the rule gives; no seed gives the all-zero state; distinct seeds give distinct
first words. -/
def Obligations.SeedTransformIsBijective : Prop :=
  Function.Bijective seedTransform ∧
  (∀ w : Word, seedTransform ((w - 1) * 0x9638806D ^^^ (((w - 1) * 0x9638806D) >>> 30)) = w) ∧
  (∀ x : Word, seedWords x ≠ Words.zero) ∧
  ∀ x y : Word, x ≠ y → (seedWords x).s0 ≠ (seedWords y).s0

/-- R107: ADVANCE is a bijection; the all-zero state maps to itself and every other state to a state that is not all zero. -/
def Obligations.AdvanceIsBijective : Prop :=
  Function.Bijective advance ∧ advance Words.zero = Words.zero ∧ ∀ w, w ≠ Words.zero → advance w ≠ Words.zero

/-- R109: the states of seeds related by f overlap; the instance of seeds 0 and 1. -/
def Obligations.SeedsRelatedByTransformOverlap : Prop :=
  (∀ (x : Word) (s : State), ∃ a b c d t u,
    exec (.seed x) s = .next t ∧ t.engine = some ⟨a, b, c, d⟩ ∧
    exec (.seed (seedTransform x)) s = .next u ∧ u.engine = some ⟨b, c, d, seedTransform d⟩) ∧
  seedWords 1 = ⟨0x6C078966, 0xDD5254A4, 0x2559C4E4, 0x5904B1F5⟩

/-- R49 (SEED is idempotent) and R101 (its result is independent of the prior state): after SEED x every state has the same
state words, and a second SEED x changes nothing. -/
def Obligations.SeedForgetsThePriorState : Prop :=
  ∀ (x : Word) (s s' : State), ∃ t t', exec (.seed x) s = .next t ∧ exec (.seed x) s' = .next t' ∧
    t.engine = t'.engine ∧ t.seeded = true ∧ exec (.seed x) t = .next t

/-- R31, as an invariant of every step from every state (any SAMPLE_VARIANT). -/
def Obligations.StepKeepsEngineNotAllZero : Prop :=
  ∀ (v : SampleVariant) (s t : State), EngineNotAllZero s → stepWith v s = .next t → EngineNotAllZero t

/-- R31 at reset. -/
def Obligations.ResetEngineNotAllZero : Prop := EngineNotAllZero State.reset

/-! ### Scalar draws -/

/-- R121: NEXT_RAW, with its encoding, its statuses and its worked example; a raw value 0 can come from a state that is not
all zero. -/
def Obligations.NextRawReturnsTheRawDraw : Prop :=
  (∀ w : CmdWord, w.extractLsb' 0 8 = 0x02 → decode w = .ok .nextRaw) ∧
  (∀ (s : State) (w : Words), s.engine = some w →
    exec .nextRaw s = .next { s with
      engine := some (advance w), response := some ⟨⟨.ok, BitVec.ofNat 64 (rawDraw w).toNat⟩, []⟩ } ∧
    (advance w).s3 = rawDraw w) ∧
  (∀ s : State, s.engine = none → exec .nextRaw s = .next { s with response := some ⟨⟨.notSeeded, 0⟩, []⟩ }) ∧
  (∃ w, w ≠ Words.zero ∧ rawDraw w = 0) ∧
  rawDraw ⟨0x00000001, 0x6C078966, 0xDD5254A4, 0x2559C4E4⟩ = 0x2559C846

/-- R122: NEXT, with its encoding, its statuses, its corner cases and its worked example. -/
def Obligations.NextReturnsTheLow31Bits : Prop :=
  (∀ w : CmdWord, w.extractLsb' 0 8 = 0x03 → decode w = .ok .next) ∧
  (∀ (s : State) (w : Words), s.engine = some w →
    exec .next s = .next { s with
      engine := some (advance w), response := some ⟨⟨.ok, BitVec.ofNat 64 ((rawDraw w).toNat % 2 ^ 31)⟩, []⟩ }) ∧
  (∀ s : State, s.engine = none → exec .next s = .next { s with response := some ⟨⟨.notSeeded, 0⟩, []⟩ }) ∧
  (∀ raw : Word, (low31 raw).toNat ≤ 2 ^ 31 - 1 ∧ low31 (raw ^^^ 0x80000000) = low31 raw) ∧
  low31 0xFFFFFFFF = 0x7FFFFFFF ∧ low31 0x80000000 = 0 ∧
  (low31 (rawDraw ⟨0x00000001, 0x6C078966, 0xDD5254A4, 0x2559C4E4⟩)).toNat = 626640966

/-- R123: SAMPLE under each SAMPLE_VARIANT, and on this hardware (UNSIGNED_DIV), with its encoding, its statuses and its
worked example. -/
def Obligations.SampleReturnsTheSelectedFormula : Prop :=
  (∀ w : CmdWord, w.extractLsb' 0 8 = 0x04 → decode w = .ok .sample) ∧
  (∀ (s : State) (w : Words), s.engine = some w →
    exec .sample s = .next { s with
      engine := some (advance w), response := some ⟨⟨.ok, sampleU (rawDraw w)⟩, []⟩ } ∧
    execWith .unsignedDiv .sample s = .next { s with
      engine := some (advance w), response := some ⟨⟨.ok, sampleU (rawDraw w)⟩, []⟩ } ∧
    execWith .signedMul .sample s = .next { s with
      engine := some (advance w), response := some ⟨⟨.ok, sampleS (rawDraw w)⟩, []⟩ }) ∧
  (∀ (v : SampleVariant) (s : State), s.engine = none →
    execWith v .sample s = .next { s with response := some ⟨⟨.notSeeded, 0⟩, []⟩ }) ∧
  sampleU (rawDraw ⟨0x00000001, 0x6C078966, 0xDD5254A4, 0x2559C4E4⟩) = 0x3FC2ACE423000000

/-- R124: the encoding SAMPLE_U returns stands for raw / 2^32 exactly, which lies in [0, 1 - 2^-32]. -/
def Obligations.SampleUnsignedIsExactQuotient : Prop :=
  (∀ raw : Word, value64 (sampleU raw) = (raw.toNat : ℚ) / 2 ^ 32 ∧
    0 ≤ value64 (sampleU raw) ∧ value64 (sampleU raw) ≤ 1 - 1 / 2 ^ 32) ∧
  sampleU 0 = 0x0000000000000000 ∧ sampleU 0xFFFFFFFF = 0x3FEFFFFFFFE00000

/-- R125: the encoding SAMPLE_S returns stands for the binary64 number nearest to s32(raw) * K (ties to even), where K is the
value of 0x3E00000000200000, exactly 2^-31 + 2^-62. -/
def Obligations.SampleSignedIsRoundedProduct : Prop :=
  value64 0x3E00000000200000 = 1 / 2 ^ 31 + 1 / 2 ^ 62 ∧
  ∀ raw : Word, IsRne64 ((raw.toInt : ℚ) * value64 0x3E00000000200000) (value64 (sampleS raw))

/-- R126: the range of SAMPLE_S, its ends, its sign and its zero. -/
def Obligations.SampleSignedRange : Prop :=
  (∀ raw : Word, value64 (sampleS 0x80000000) ≤ value64 (sampleS raw) ∧ value64 (sampleS raw) ≤ 1 ∧
    (value64 (sampleS raw) < 0 ↔ raw.getLsbD 31 = true) ∧ (value64 (sampleS raw) = 0 ↔ raw = 0)) ∧
  sampleS 0 = 0 ∧
  sampleS 0x80000000 = 0xBFF0000000200000 ∧ value64 0xBFF0000000200000 = -(1 + 1 / 2 ^ 31) ∧
  sampleS 0x7FFFFFFF = 0x3FF0000000000000 ∧ value64 0x3FF0000000000000 = 1 ∧
  value64 (sampleS 0x80000001) = -1

/-- R9, on the integers RNE64 is applied to (|p| < 2^64, R125 and R127): the model's RNE64 is the nearest binary64 number,
ties to even. -/
def Obligations.RoundingIsNearestTiesToEven : Prop :=
  ∀ p : ℤ, |p| < 2 ^ 64 → IsRne64 (p : ℚ) (rne64 p : ℚ)

/-- R127 with R9: whatever number RNE64 of the exact product is, BOUNDED is the floor of its quotient by 2^32. -/
def Obligations.BoundedFloorsTheRoundedProduct : Prop :=
  ∀ (raw : Word) (n : ℤ) (q : ℚ), -2 ^ 31 ≤ n → n ≤ 2 ^ 32 → IsRne64 ((raw.toNat : ℚ) * n) q →
    bounded raw n = ⌊q / 2 ^ 32⌋

/-- R129: BOUNDED is the exact floor when the product is below 2^53 in magnitude, and otherwise, for n >= 0, the exact floor
or one more; the example. -/
def Obligations.BoundedIsExactFloorOrOneMore : Prop :=
  (∀ (raw : Word) (n : ℤ), -2 ^ 31 ≤ n → n ≤ 2 ^ 32 → |(raw.toNat : ℤ) * n| < 2 ^ 53 →
    bounded raw n = (raw.toNat : ℤ) * n / 2 ^ 32) ∧
  (∀ (raw : Word) (n : ℤ), |n| ≤ 2 ^ 21 → |(raw.toNat : ℤ) * n| < 2 ^ 53) ∧
  (∀ (raw : Word) (n : ℤ), 0 ≤ n → n ≤ 2 ^ 32 →
    bounded raw n = (raw.toNat : ℤ) * n / 2 ^ 32 ∨ bounded raw n = (raw.toNat : ℤ) * n / 2 ^ 32 + 1) ∧
  bounded 0x80000001 (2 ^ 31 - 1) = 1073741824 ∧ (0x80000001 * (2 ^ 31 - 1) : ℤ) / 2 ^ 32 = 1073741823

/-- R131: the range of BOUNDED for n >= 1, and so of every result of NEXT_MAX m for 0 <= m <= 2^31-2. -/
def Obligations.NextMaxResultLiesInRange : Prop :=
  (∀ (raw : Word) (n : ℤ), 1 ≤ n → n ≤ 2 ^ 32 → 0 ≤ bounded raw n ∧ bounded raw n ≤ n - 1) ∧
  ∀ (m : ℤ) (s : State) (w : Words), 0 ≤ m → m ≤ 2 ^ 31 - 2 → s.engine = some w →
    ∃ r : ℤ, 0 ≤ r ∧ r ≤ m ∧
      exec (.nextMax m) s = .next { s with
        engine := some (advance w), response := some ⟨⟨.ok, BitVec.ofInt 64 r⟩, []⟩ }

/-- R133 (with R132): every successful NEXT_RANGE returns a value in [lo, hi], after one ADVANCE. -/
def Obligations.NextRangeResultLiesInRange : Prop :=
  ∀ (lo hi : ℤ) (s : State) (w : Words), IsInt32 lo → IsInt32 hi → lo ≤ hi → s.engine = some w →
    ∃ r : ℤ, lo ≤ r ∧ r ≤ hi ∧
      exec (.nextRange lo hi) s = .next { s with
        engine := some (advance w), response := some ⟨⟨.ok, BitVec.ofInt 64 r⟩, []⟩ }

/-- R130: NEXT_MAX, with its encoding, its statuses, every corner case and its worked example. -/
def Obligations.NextMaxScalesOrRejects : Prop :=
  (∀ w : CmdWord, w.extractLsb' 0 8 = 0x05 → decode w = .ok (.nextMax (w.extractLsb' 8 32).toInt)) ∧
  (∀ (m : ℤ) (s : State) (w : Words), IsInt32 m → s.engine = some w →
    (m < -1 → exec (.nextMax m) s = .next { s with response := some ⟨⟨.invalidArgument, 3⟩, []⟩ }) ∧
    (m = -1 → exec (.nextMax m) s = .next { s with
      engine := some (advance w), response := some ⟨⟨.ok, 0⟩, []⟩ }) ∧
    (m = 0 → exec (.nextMax m) s = .next { s with
      engine := some (advance w), response := some ⟨⟨.ok, 0⟩, []⟩ }) ∧
    (-1 ≤ m → m ≤ 2 ^ 31 - 2 → exec (.nextMax m) s = .next { s with
      engine := some (advance w), response := some ⟨⟨.ok, BitVec.ofInt 64 (bounded (rawDraw w) (m + 1))⟩, []⟩ }) ∧
    (0 ≤ m → m ≤ 2 ^ 31 - 2 → 0 ≤ bounded (rawDraw w) (m + 1) ∧ bounded (rawDraw w) (m + 1) ≤ m) ∧
    (m = 2 ^ 31 - 1 → exec (.nextMax m) s = .next { s with
      engine := some (advance w)
      response := some ⟨⟨.ok, BitVec.ofInt 64 (-((((rawDraw w).toNat : ℤ) + 1) / 2))⟩, []⟩ } ∧
      bounded (rawDraw w) (-2 ^ 31) = ⌊-((rawDraw w).toNat : ℚ) / 2⌋ ∧
      -2 ^ 31 ≤ bounded (rawDraw w) (-2 ^ 31) ∧ bounded (rawDraw w) (-2 ^ 31) ≤ 0 ∧
      (0 < (rawDraw w).toNat → bounded (rawDraw w) (-2 ^ 31) < 0))) ∧
  (∀ (m : ℤ) (s : State), IsInt32 m → s.engine = none →
    exec (.nextMax m) s = .next { s with response := some ⟨⟨.notSeeded, 0⟩, []⟩ }) ∧
  bounded 0x2559C846 100 = 14

/-- R132: NEXT_RANGE, with its encoding, its statuses, its corner cases and its worked example. -/
def Obligations.NextRangeScalesOrRejects : Prop :=
  (∀ w : CmdWord, w.extractLsb' 0 8 = 0x06 →
    decode w = .ok (.nextRange (w.extractLsb' 8 32).toInt (w.extractLsb' 40 32).toInt)) ∧
  (∀ (lo hi : ℤ) (s : State) (w : Words), IsInt32 lo → IsInt32 hi → s.engine = some w →
    (hi < lo → exec (.nextRange lo hi) s = .next { s with response := some ⟨⟨.invalidArgument, 2⟩, []⟩ }) ∧
    (lo ≤ hi → exec (.nextRange lo hi) s = .next { s with
      engine := some (advance w)
      response := some ⟨⟨.ok, BitVec.ofInt 64 (lo + bounded (rawDraw w) (hi - lo + 1))⟩, []⟩ } ∧
      lo ≤ lo + bounded (rawDraw w) (hi - lo + 1) ∧ lo + bounded (rawDraw w) (hi - lo + 1) ≤ hi) ∧
    (lo = hi → exec (.nextRange lo hi) s = .next { s with
      engine := some (advance w), response := some ⟨⟨.ok, BitVec.ofInt 64 lo⟩, []⟩ }) ∧
    (lo = -2 ^ 31 → hi = 2 ^ 31 - 1 → exec (.nextRange lo hi) s = .next { s with
      engine := some (advance w)
      response := some ⟨⟨.ok, BitVec.ofInt 64 (((rawDraw w).toNat : ℤ) - 2 ^ 31)⟩, []⟩ })) ∧
  (∀ (lo hi : ℤ) (s : State), IsInt32 lo → IsInt32 hi → s.engine = none →
    exec (.nextRange lo hi) s = .next { s with response := some ⟨⟨.notSeeded, 0⟩, []⟩ }) ∧
  (∀ (m : ℤ) (s : State), 0 ≤ m → m ≤ 2 ^ 31 - 2 → exec (.nextRange 0 m) s = exec (.nextMax m) s) ∧
  decode 0xFFFFFFFF0000000006 = .ok (.nextRange 0 (-1)) ∧
  bounded 0x2559C846 101 + 50 = 64

/-- R25 and R134: only SAMPLE depends on SAMPLE_VARIANT; this hardware's `exec` is the block with UNSIGNED_DIV (R5). -/
def Obligations.OnlySampleReadsTheVariant : Prop :=
  (∀ (v : SampleVariant) (i : Instr) (s : State), i ≠ .sample → execWith v i s = exec i s) ∧
  (∀ (i : Instr) (s : State), execWith .unsignedDiv i s = exec i s) ∧
  ∀ s : State, stepWith .unsignedDiv s = step s

/-! ### Fills -/

/-- R160: FILL_INT: element i is the low 31 bits of raw draw i, in buffer order, one ADVANCE an element; without a buffer
INVALID_ARGUMENT; length 0 is a no-op with status OK. -/
def Obligations.FillIntReturnsOneElementPerAdvance : Prop :=
  (∀ w : CmdWord, w.extractLsb' 5 3 = 0 → w.extractLsb' 0 4 = 0x7 →
    decode w = .ok (.fillInt (w.getLsbD 4) (w.extractLsb' 8 32).toNat)) ∧
  (∀ (n : ℕ) (s : State) (w : Words), IsU32 n → s.engine = some w →
    exec (.fillInt true n) s = .next { s with
      engine := some (advanceN n w)
      response := some ⟨⟨.ok, BitVec.ofNat 64 n⟩,
        (List.range n).map fun i => ⟨0xF, rawDraw (advanceN i w) &&& 0x7FFFFFFF⟩⟩ } ∧
    exec (.fillInt false n) s = .next { s with response := some ⟨⟨.invalidArgument, 1⟩, []⟩ }) ∧
  (∀ (buf : Bool) (n : ℕ) (s : State), s.engine = none →
    exec (.fillInt buf n) s = .next { s with response := some ⟨⟨.notSeeded, 0⟩, []⟩ }) ∧
  (∀ (s : State) (w : Words), s.engine = some w →
    exec (.fillInt true 0) s = .next { s with response := some ⟨⟨.ok, 0⟩, []⟩ }) ∧
  (∀ raw : Word, (raw &&& 0x7FFFFFFF).getLsbD 31 = false) ∧
  intBeats (rawDraws 3 ⟨0x00000001, 0x6C078966, 0xDD5254A4, 0x2559C4E4⟩) =
    [⟨0xF, 0x2559C846⟩, ⟨0xF, 0x75453932⟩, ⟨0xF, 0x3AFDB44A⟩]

/-- R162: FILL_BYTES: ceil(L/4) ADVANCEs; beat j carries the low k bytes of raw draw j, k = 4 but for a partial last group. -/
def Obligations.FillBytesReturnsOneGroupPerAdvance : Prop :=
  (∀ w : CmdWord, w.extractLsb' 5 3 = 0 → w.extractLsb' 0 4 = 0x8 →
    decode w = .ok (.fillBytes (w.getLsbD 4) (w.extractLsb' 8 32).toNat)) ∧
  (∀ (n : ℕ) (s : State) (w : Words), IsU32 n → s.engine = some w →
    exec (.fillBytes true n) s = .next { s with
      engine := some (advanceN ((n + 3) / 4) w)
      response := some ⟨⟨.ok, BitVec.ofNat 64 n⟩,
        (List.range ((n + 3) / 4)).map fun j =>
          let k := if j = (n + 3) / 4 - 1 ∧ n % 4 ≠ 0 then n % 4 else 4
          ⟨BitVec.ofNat 4 (2 ^ k - 1), BitVec.ofNat 32 ((rawDraw (advanceN j w)).toNat % 2 ^ (8 * k))⟩⟩ } ∧
    exec (.fillBytes false n) s = .next { s with response := some ⟨⟨.invalidArgument, 1⟩, []⟩ }) ∧
  (∀ (buf : Bool) (n : ℕ) (s : State), s.engine = none →
    exec (.fillBytes buf n) s = .next { s with response := some ⟨⟨.notSeeded, 0⟩, []⟩ }) ∧
  (∀ (s : State) (w : Words), s.engine = some w →
    exec (.fillBytes true 0) s = .next { s with response := some ⟨⟨.ok, 0⟩, []⟩ }) ∧
  byteBeats 7 (rawDraws 2 ⟨0x00000001, 0x6C078966, 0xDD5254A4, 0x2559C4E4⟩) = [⟨0xF, 0x2559C846⟩, ⟨0x7, 0x00453932⟩] ∧
  drawUnits (.fillBytes true (2 ^ 32 - 1)) = 2 ^ 30

/-- R44: byte i of the buffer is byte i mod 4 of raw draw floor(i/4), and there are exactly L bytes. -/
def Obligations.FillBytesIsLittleEndian : Prop :=
  ∀ (n : ℕ) (s : State) (w : Words), IsU32 n → s.engine = some w →
    ∃ t r, exec (.fillBytes true n) s = .next t ∧ t.response = some r ∧
      (r.beats.flatMap Beat.bytes).length = n ∧
      ∀ i, i < n →
        (r.beats.flatMap Beat.bytes)[i]? = some ((rawDraw (advanceN (i / 4) w)).extractLsb' (8 * (i % 4)) 8)

/-- R163: the framing of FILL_BYTES: which BE each beat has, and the popcounts add up to L. -/
def Obligations.FillBytesBeatFraming : Prop :=
  ∀ (n : ℕ) (s : State) (w : Words), IsU32 n → s.engine = some w →
    ∃ t r, exec (.fillBytes true n) s = .next t ∧ t.response = some r ∧
      r.beats.length = (n + 3) / 4 ∧
      (∀ j b, r.beats[j]? = some b → j + 1 < (n + 3) / 4 ∨ n % 4 = 0 →
        b.be = 0xF ∧ b.bdata = rawDraw (advanceN j w)) ∧
      (∀ j b, r.beats[j]? = some b → j + 1 = (n + 3) / 4 → n % 4 ≠ 0 →
        b.be = (1#4 <<< (n % 4)) - 1 ∧ (b.be = 0x1 ∨ b.be = 0x3 ∨ b.be = 0x7) ∧
        ∀ k, k < n % 4 → b.lane k = (rawDraw (advanceN j w)).extractLsb' (8 * k) 8) ∧
      (r.beats.map Beat.count).sum = n

/-- R161: FILL_INT L leaves the state words L successive NEXT commands leave, and its element i is the value the (i+1)-th of
them returns. -/
def Obligations.FillIntEqualsSuccessiveNexts : Prop :=
  ∀ (n : ℕ) (s : State) (w : Words), IsU32 n → s.engine = some w →
    ∃ t r u, exec (.fillInt true n) s = .next t ∧ t.response = some r ∧ r.beats.length = n ∧
      execAllOk Config.sampleVariant (List.replicate n .next) s = some u ∧ u.engine = t.engine ∧
      ∀ i, i < n → ∃ a b q beat, execAllOk Config.sampleVariant (List.replicate i .next) s = some a ∧
        exec .next a = .next b ∧ b.response = some q ∧ r.beats[i]? = some beat ∧
        q.header = ⟨.ok, beat.bdata.setWidth 64⟩

/-- R164: FILL_BYTES 4 and NEXT_RAW from the same state: one full beat with NEXT_RAW's DATA[31:0], and the same state words.
-/
def Obligations.FillFourBytesEqualsNextRaw : Prop :=
  ∀ (s : State) (w : Words), s.engine = some w →
    ∃ t u r b, exec (.fillBytes true 4) s = .next t ∧ exec .nextRaw s = .next u ∧
      u.response = some r ∧ r.header.status = .ok ∧
      t.response = some ⟨⟨.ok, 4⟩, [b]⟩ ∧ b.be = 0xF ∧ b.bdata = r.header.data.extractLsb' 0 32 ∧ t.engine = u.engine

/-! ### Whole-machine rules about commands -/

/-- R103 and R165: a draw that succeeds performs exactly one ADVANCE per unit of output and changes nothing else; one that
returns an error performs none. -/
def Obligations.DrawsAdvanceOncePerUnit : Prop :=
  ∀ (v : SampleVariant) (i : Instr) (s : State) (w : Words), isDraw i = true → s.engine = some w →
    ∃ t, execWith v i s = .next t ∧
      (respondedOk t = true → t = { s with engine := some (advanceN (drawUnits i) w), response := t.response }) ∧
      (respondedOk t = false → t = { s with response := t.response })

/-- R104: the state words after a sequence of successful draws are ADVANCE^K of those before, K the sum of the units, so that
two sequences with the same K leave the same state words. -/
def Obligations.DrawSequencesArePathIndependent : Prop :=
  (∀ (v : SampleVariant) (is : List Instr) (s t : State) (w : Words), (∀ i ∈ is, isDraw i = true) → s.engine = some w →
    execAllOk v is s = some t → t.engine = some (advance^[(is.map drawUnits).sum] w)) ∧
  ∀ (v v' : SampleVariant) (is is' : List Instr) (s s' t t' : State), (∀ i ∈ is, isDraw i = true) →
    (∀ i ∈ is', isDraw i = true) → (is.map drawUnits).sum = (is'.map drawUnits).sum → s.engine = s'.engine →
    s.seeded = true → execAllOk v is s = some t → execAllOk v' is' s' = some t' → t.engine = t'.engine

/-- R204 and R200: a command word answered with a status other than OK leaves every state element unchanged and emits no
beat. -/
def Obligations.ErrorsLeaveStateUnchanged : Prop :=
  ∀ (v : SampleVariant) (w : CmdWord) (s t : State) (r : Response), runWord v w s = .next t → t.response = some r →
    r.header.status ≠ .ok → t = { s with response := some r } ∧ r.beats = []

/-- R205: the priority of the errors: ILLEGAL_COMMAND (RESERVED_OPCODE before RESERVED_FLAGS), then NOT_SEEDED, then
INVALID_ARGUMENT; and the three examples. -/
def Obligations.ErrorPriority : Prop :=
  (∀ (v : SampleVariant) (w : CmdWord) (s : State), (w.extractLsb' 0 4 = 0 ∨ 9 ≤ (w.extractLsb' 0 4).toNat) →
    runWord v w s = .next { s with response := some ⟨⟨.illegalCommand, 1⟩, []⟩ }) ∧
  (∀ (v : SampleVariant) (w : CmdWord) (s : State), 1 ≤ (w.extractLsb' 0 4).toNat → (w.extractLsb' 0 4).toNat ≤ 8 →
    (w.extractLsb' 5 3 ≠ 0 ∨ w.getLsbD 4 = true ∧ (w.extractLsb' 0 4).toNat < 7) →
    runWord v w s = .next { s with response := some ⟨⟨.illegalCommand, 2⟩, []⟩ }) ∧
  (∀ (v : SampleVariant) (w : CmdWord) (i : Instr) (s : State), decode w = .ok i → isDraw i = true → s.engine = none →
    runWord v w s = .next { s with response := some ⟨⟨.notSeeded, 0⟩, []⟩ }) ∧
  (∀ (v : SampleVariant) (w : CmdWord) (i : Instr) (s : State) (d : ℕ), decode w = .ok i → s.seeded = true →
    argumentError i = some d →
    runWord v w s = .next { s with response := some ⟨⟨.invalidArgument, BitVec.ofNat 64 d⟩, []⟩ }) ∧
  runWord .unsignedDiv 0x000000000000000008 State.reset = .next { State.reset with response := some ⟨⟨.notSeeded, 0⟩, []⟩ } ∧
  runWord .unsignedDiv 0x000000010000000506 State.reset = .next { State.reset with response := some ⟨⟨.notSeeded, 0⟩, []⟩ } ∧
  ∀ s : State, runWord .unsignedDiv 0x0000000000000000E9 s = .next { s with response := some ⟨⟨.illegalCommand, 1⟩, []⟩ }

/-- R203: on a seeded block a command is answered INVALID_ARGUMENT exactly when its condition in the table holds, with that
detail and no state change; otherwise it is answered OK. -/
def Obligations.InvalidArgumentExactlyByTable : Prop :=
  ∀ (v : SampleVariant) (i : Instr) (s : State), s.seeded = true → i.WellFormed →
    ∃ t r, execWith v i s = .next t ∧ t.response = some r ∧
      match argumentError i with
      | some d => t = { s with response := some ⟨⟨.invalidArgument, BitVec.ofNat 64 d⟩, []⟩ }
      | none => r.header.status = .ok

/-- R32 and R68: executing any command word completes and produces one response; on two blocks with the same state words it
leaves the same state words and produces the same response, whatever else they hold; nothing else of a state changes. -/
def Obligations.CommandsDependOnTheEngineAlone : Prop :=
  ∀ (v : SampleVariant) (w : CmdWord) (s s' : State), s.engine = s'.engine → ∃ (e : Option Words) (r : Response),
    runWord v w s = .next { s with engine := e, response := some r } ∧
    runWord v w s' = .next { s' with engine := e, response := some r }

/-- Every step goes on: no status stops the machine. R200, R208 and R216 say so of commands; that the machine has no fault and
no refusal at all is log entry 12 (DEDUCED), and that a step without an event, or a grant to a requester with nothing
outstanding, goes on unchanged is log entry 3 (DESIGN CHOICE). -/
def Obligations.EveryStepGoesOn : Prop := ∀ (v : SampleVariant) (s : State), Safe (stepWith v s)

/-- R72, R73, R74 and R201 to R203: no response is held between commands, and every response returned has a form the spec
gives some command: an error has no beats and a detail of its status; a success has the DATA of a scalar and no beats, or a
fill's beats, whose number (FILL_INT) or enabled bytes (FILL_BYTES) are DATA; disabled lanes are 0 and only a last beat is
partial. Every step keeps this. That returned responses are listed is the model's choice (log entry 5). -/
def Obligations.StepKeepsResponsesWellFormed : Prop :=
  ∀ (v : SampleVariant) (s t : State), ResponsesWellFormed v s → stepWith v s = .next t → ResponsesWellFormed v t

/-- The invariant of responses at reset. -/
def Obligations.ResetResponsesWellFormed : Prop := ∀ v : SampleVariant, ResponsesWellFormed v State.reset

/-! ### Encoding -/

/-- R66: the three outcomes of decoding, and when each is the one. -/
def Obligations.DecodingIsTotalInOrder : Prop :=
  ∀ w : CmdWord,
    (decode w = .error .reservedOpcode ↔ w.extractLsb' 0 4 = 0 ∨ 9 ≤ (w.extractLsb' 0 4).toNat) ∧
    (decode w = .error .reservedFlags ↔
      (1 ≤ (w.extractLsb' 0 4).toNat ∧ (w.extractLsb' 0 4).toNat ≤ 8) ∧
      (w.extractLsb' 5 3 ≠ 0 ∨
        w.getLsbD 4 = true ∧ ¬ (w.extractLsb' 0 4 = 0x7 ∨ w.extractLsb' 0 4 = 0x8))) ∧
    ((∃ i, decode w = .ok i) ↔
      (1 ≤ (w.extractLsb' 0 4).toNat ∧ (w.extractLsb' 0 4).toNat ≤ 8) ∧ w.extractLsb' 5 3 = 0 ∧
        (w.getLsbD 4 = true → w.extractLsb' 0 4 = 0x7 ∨ w.extractLsb' 0 4 = 0x8))

/-- R65: a word decodes to a command exactly when its low byte, masked, is the command's match value; no word matches two
rows. -/
def Obligations.DecodingFollowsMatchAndMask : Prop :=
  (∀ w : CmdWord,
    ((∃ x, decode w = .ok (.seed x)) ↔ w.extractLsb' 0 8 = 0x01) ∧
    (decode w = .ok .nextRaw ↔ w.extractLsb' 0 8 = 0x02) ∧
    (decode w = .ok .next ↔ w.extractLsb' 0 8 = 0x03) ∧
    (decode w = .ok .sample ↔ w.extractLsb' 0 8 = 0x04) ∧
    ((∃ m, decode w = .ok (.nextMax m)) ↔ w.extractLsb' 0 8 = 0x05) ∧
    ((∃ lo hi, decode w = .ok (.nextRange lo hi)) ↔ w.extractLsb' 0 8 = 0x06) ∧
    ((∃ n, decode w = .ok (.fillInt (w.getLsbD 4) n)) ↔ w.extractLsb' 0 8 &&& 0xEF = 0x07) ∧
    ((∃ n, decode w = .ok (.fillBytes (w.getLsbD 4) n)) ↔ w.extractLsb' 0 8 &&& 0xEF = 0x08)) ∧
  (∀ (row : OpcodeRow) (w : CmdWord), row ∈ opcodeTable →
    (row.matches w = true ↔ ∃ i, decode w = .ok i ∧ i.opcode = row.opcode)) ∧
  opcodeTable.Pairwise fun a b => ∀ w : CmdWord, ¬ (a.matches w = true ∧ b.matches w = true)

/-- R63: ARG1 outside NEXT_RANGE, and ARG0 for NEXT_RAW, NEXT and SAMPLE, may hold any value: words that differ only there
decode to the same command. -/
def Obligations.IgnoredFieldsDoNotMatter : Prop :=
  (∀ w w' : CmdWord, w.extractLsb' 0 40 = w'.extractLsb' 0 40 → w.extractLsb' 0 4 ≠ 0x6 → decode w = decode w') ∧
  ∀ w w' : CmdWord, w.extractLsb' 0 8 = w'.extractLsb' 0 8 →
    (w.extractLsb' 0 4 = 0x2 ∨ w.extractLsb' 0 4 = 0x3 ∨ w.extractLsb' 0 4 = 0x4) → decode w = decode w'

/-- Decode and encode agree (R60, R62, R64): every well-formed command, with every operand, survives its word. -/
def Obligations.DecodeOfEncodeIsTheCommand : Prop := ∀ i : Instr, i.WellFormed → decode (encode i) = .ok i

/-- What decodes is well formed, and re-encoding it gives the word back in every field that is not ignored (R60, R62, R63). -/
def Obligations.EncodeOfDecodeKeepsOperandBits : Prop :=
  ∀ (w : CmdWord) (i : Instr), decode w = .ok i → i.WellFormed ∧ encode i = w &&& i.opcode.operandMask

/-- R70 and R71: the bits of a response header; every 66-bit word is the header of one status and one DATA. -/
def Obligations.HeaderBitsCarryStatusAndData : Prop :=
  (∀ (st : Status) (d : Data),
    (Header.toWord ⟨st, d⟩).extractLsb' 64 2 = st.code ∧ (Header.toWord ⟨st, d⟩).extractLsb' 0 64 = d) ∧
  (Status.code .ok = 0 ∧ Status.code .invalidArgument = 1 ∧ Status.code .notSeeded = 2 ∧ Status.code .illegalCommand = 3) ∧
  (∀ h : Header, Header.ofWord h.toWord = h) ∧ ∀ w : BitVec 66, (Header.ofWord w).toWord = w

/-- R73 (the fields of a beat): BE is bits 35:32 and BDATA is bits 31:0; every 36-bit word is one beat. -/
def Obligations.BeatBitsCarryEnablesAndData : Prop :=
  (∀ (be : BitVec 4) (d : BitVec 32),
    (Beat.toWord ⟨be, d⟩).extractLsb' 32 4 = be ∧ (Beat.toWord ⟨be, d⟩).extractLsb' 0 32 = d) ∧
  (∀ b : Beat, Beat.ofWord b.toWord = b) ∧ ∀ w : BitVec 36, (Beat.ofWord w).toWord = w

/-- A few words written out from the encoding decode to the commands they stand for. -/
def Obligations.SpecWordsDecode : Prop :=
  decode 0x000000000000303901 = .ok (.seed 12345) ∧
  decode 0x123456789ABCDEF002 = .ok .nextRaw ∧
  decode 0x000000000000000003 = .ok .next ∧
  decode 0x000000000000000004 = .ok .sample ∧
  decode 0x00000000FFFFFFFE05 = .ok (.nextMax (-2)) ∧
  decode 0x000000960000003206 = .ok (.nextRange 50 150) ∧
  decode 0x000000000000000317 = .ok (.fillInt true 3) ∧
  decode 0x000000000000000718 = .ok (.fillBytes true 7) ∧
  decode 0x000000000000000008 = .ok (.fillBytes false 0)

/-- R75: lines of the spec's programs assemble to the words the spec prints beside them. -/
def Obligations.ProgramLinesAssemble : Prop :=
  assembleLine ['S', 'E', 'E', 'D', ' ', '1', '2', '3', '4', '5'] = some 0x000000000000303901 ∧
  assembleLine ['N', 'E', 'X', 'T', '_', 'R', 'A', 'W'] = some 0x000000000000000002 ∧
  assembleLine ['N', 'E', 'X', 'T', '_', 'M', 'A', 'X', ' ', '-', '2'] = some 0x00000000FFFFFFFE05 ∧
  assembleLine ['N', 'E', 'X', 'T', '_', 'R', 'A', 'N', 'G', 'E', ' ', '1', '5', '0', ',', ' ', '5', '0'] =
    some 0x000000320000009606 ∧
  assembleLine ['F', 'I', 'L', 'L', '_', 'B', 'Y', 'T', 'E', 'S', ' ', '7'] = some 0x000000000000000718 ∧
  assembleLine ['F', 'I', 'L', 'L', '_', 'B', 'Y', 'T', 'E', 'S', ' ', 'n', 'u', 'l', 'l', ' ', ';', ' ', 'x'] =
    some 0x000000000000000008

/-! ### The command port -/

/-- When the port is granted to a requester whose oldest outstanding word decodes to i, the step is exec of i on the state
without that word and that event, followed by the return of the response to that requester and nothing else (R47, R50, R68).
That events are a list and that returned responses are listed is the model's choice (log entries 2 and 5). -/
def Obligations.StepRunsTheDecodedCommand : Prop :=
  ∀ (s t : State) (r : ℕ) (rest : List Input) (before after : List Request) (w : CmdWord) (i : Instr) (q : Response),
    s.inputs = .grant r :: rest → s.pending = before ++ ⟨r, w⟩ :: after → (∀ p ∈ before, p.requester ≠ r) →
    decode w = .ok i → exec i { s with inputs := rest, pending := before ++ after } = .next t → t.response = some q →
    step s = .next { t with response := none, delivered := t.delivered ++ [⟨r, q⟩] }

/-- R201 and R67: a word is answered ILLEGAL_COMMAND exactly when the table gives it a cause, with that cause's detail, and
then no state changes. -/
def Obligations.IllegalCommandExactlyByTable : Prop :=
  ∀ (v : SampleVariant) (w : CmdWord) (s : State),
    ((w.extractLsb' 0 4 = 0 ∨ 9 ≤ (w.extractLsb' 0 4).toNat) →
      runWord v w s = .next { s with response := some ⟨⟨.illegalCommand, 1⟩, []⟩ }) ∧
    (1 ≤ (w.extractLsb' 0 4).toNat → (w.extractLsb' 0 4).toNat ≤ 8 →
      (w.extractLsb' 5 3 ≠ 0 ∨ w.getLsbD 4 = true ∧ ¬ (w.extractLsb' 0 4 = 0x7 ∨ w.extractLsb' 0 4 = 0x8)) →
      runWord v w s = .next { s with response := some ⟨⟨.illegalCommand, 2⟩, []⟩ }) ∧
    (1 ≤ (w.extractLsb' 0 4).toNat → (w.extractLsb' 0 4).toNat ≤ 8 → w.extractLsb' 5 3 = 0 →
      (w.getLsbD 4 = true → w.extractLsb' 0 4 = 0x7 ∨ w.extractLsb' 0 4 = 0x8) →
      ∃ t r, runWord v w s = .next t ∧ t.response = some r ∧ r.header.status ≠ .illegalCommand)

/-- A step that serves an illegal word changes no state word and no other command, and returns ILLEGAL_COMMAND with the detail
of its cause to the requester. That events are a list and that returned responses are listed is the model's choice (log
entries 2 and 5); what R67 and R201 say of the word itself is IllegalCommandExactlyByTable. -/
def Obligations.IllegalWordsAreReported : Prop :=
  ∀ (v : SampleVariant) (s : State) (r : ℕ) (rest : List Input) (before after : List Request) (w : CmdWord) (e : DecodeError),
    s.inputs = .grant r :: rest → s.pending = before ++ ⟨r, w⟩ :: after → (∀ p ∈ before, p.requester ≠ r) →
    decode w = .error e →
    stepWith v s = .next { s with
      inputs := rest, pending := before ++ after, response := none
      delivered := s.delivered ++
        [⟨r, ⟨⟨.illegalCommand, match e with | .reservedOpcode => 1 | .reservedFlags => 2⟩, []⟩⟩] }

/-- The state the host asks about runs the given word's command in its very next step, for requester 0 (log entry 4). -/
def Obligations.FetchWordRunsNext : Prop :=
  ∀ (s t : State) (nbits w : ℕ) (i : Instr) (q : Response), decodeTableWord nbits w = some i → exec i s = .next t →
    t.response = some q →
    step (s.withFetchWord nbits w) = .next { t with response := none, delivered := t.delivered ++ [⟨0, q⟩] }

/-- R51's demand on a model, that it admit every interleaving: for EVERY order of the pending commands that keeps each
requester's own order there are grants under which the machine executes them in that order, each once, and returns each
response to its requester. That grants are events of a list and that returned responses are listed is the model's choice
(log entries 2 and 5). -/
def Obligations.EveryInterleavingIsAdmitted : Prop :=
  ∀ (v : SampleVariant) (s : State) (order : List Request), s.response = none →
    (∀ r, streamOf r order = streamOf r s.pending) →
    runWith v order.length { s with inputs := order.map fun q => .grant q.requester } =
      .next { s with
        engine := (serveAll v order s.engine).1
        pending := []
        delivered := s.delivered ++ (serveAll v order s.engine).2
        inputs := [] }

/-- The total order of R50 and the completeness of R52: whatever the outside world does (short of a reset), what the machine
has done is the serial execution of SOME order of commands; that order followed by what is still pending keeps, for every
requester, its stream of commands: none is lost, duplicated or overtaken. That the outside world is a list of events and
that returned responses are listed is the model's choice (log entries 2 and 5). -/
def Obligations.EveryRunIsASerialOrder : Prop :=
  ∀ (v : SampleVariant) (k : ℕ) (s t : State), (∀ e ∈ s.inputs.take k, e ≠ .reset) →
    runWith v k s = .next t →
    ∃ order : List Request,
      t.engine = (serveAll v order s.engine).1 ∧
      t.delivered = s.delivered ++ (serveAll v order s.engine).2 ∧
      ∀ r, streamOf r (order ++ t.pending) = streamOf r (s.pending ++ presented (s.inputs.take k))

/-- R105: two blocks with the same SAMPLE_VARIANT, whatever state words they held before, that are given the same events,
the first of which executes SEED x, are in the same state from then on, and have returned the same responses (events and
returned responses as lists: log entries 2 and 5). -/
def Obligations.EqualSeedsGiveEqualRuns : Prop :=
  ∀ (v : SampleVariant) (k r : ℕ) (x : Word) (qs : List Request) (ins : List Input) (ds : List Delivery)
    (s s' t t' : State),
    s.pending = ⟨r, encode (.seed x)⟩ :: qs → s'.pending = ⟨r, encode (.seed x)⟩ :: qs →
    s.inputs = .grant r :: ins → s'.inputs = .grant r :: ins → s.delivered = ds → s'.delivered = ds →
    runWith v (k + 1) s = .next t → runWith v (k + 1) s' = .next t' → t = t'
end

