-- ==== Sys2Proof/Laws/Encoding.lean ====
section
/-! SUPPORT. The fields of a command word: reading back what `cmdWord` writes, and a word is its fields. -/

namespace Sys2Proof

/-- Bit `k` of a command word, by the field it stands in (R60). -/
theorem getLsbD_cmdWord (a1 a0 : Word) (r : BitVec 3) (b : Bool) (o : BitVec 4) (k : Nat) :
    (cmdWord a1 a0 r b o).getLsbD k =
      if k < 4 then o.getLsbD k else if k = 4 then b else if k < 8 then r.getLsbD (k - 5)
      else if k < 40 then a0.getLsbD (k - 8) else a1.getLsbD (k - 40) := by
  simp only [cmdWord, BitVec.getLsbD_append, BitVec.getLsbD_ofBool]
  split
  · rfl
  · by_cases h4 : k = 4
    · subst h4; simp
    · have h5 : ¬ k - 4 < 1 := by omega
      simp only [h5, if_false, h4, Nat.sub_sub]
      by_cases h8 : k < 8
      · simp [h8, show k - (4 + 1) < 3 by omega]
      · simp only [show ¬ k - (4 + 1) < 3 by omega, h8, if_false]
        by_cases h40 : k < 40
        · simp [h40, show k - (4 + 1 + 3) < 32 by omega]
        · simp [h40, show ¬ k - (4 + 1 + 3) < 32 by omega]

@[simp] theorem cmdOp_cmdWord (a1 a0 r b o) : cmdOp (cmdWord a1 a0 r b o) = o := by
  apply BitVec.eq_of_getLsbD_eq; intro k hk
  simp [cmdOp, getLsbD_cmdWord, hk]

@[simp] theorem cmdBuf_cmdWord (a1 a0 r b o) : cmdBuf (cmdWord a1 a0 r b o) = b := by
  rw [cmdBuf, getLsbD_cmdWord]; rfl

@[simp] theorem cmdRsv_cmdWord (a1 a0 r b o) : cmdRsv (cmdWord a1 a0 r b o) = r := by
  apply BitVec.eq_of_getLsbD_eq; intro k hk
  simp [cmdRsv, getLsbD_cmdWord, hk, show ¬ 5 + k < 4 by omega, show ¬ 5 + k = 4 by omega, show 5 + k < 8 by omega]

@[simp] theorem cmdArg0_cmdWord (a1 a0 r b o) : cmdArg0 (cmdWord a1 a0 r b o) = a0 := by
  apply BitVec.eq_of_getLsbD_eq; intro k hk
  simp [cmdArg0, getLsbD_cmdWord, hk, show ¬ 8 + k < 4 by omega, show ¬ 8 + k = 4 by omega, show ¬ 8 + k < 8 by omega,
    show 8 + k < 40 by omega]

@[simp] theorem cmdArg1_cmdWord (a1 a0 r b o) : cmdArg1 (cmdWord a1 a0 r b o) = a1 := by
  apply BitVec.eq_of_getLsbD_eq; intro k hk
  simp [cmdArg1, getLsbD_cmdWord, hk, show ¬ 40 + k < 4 by omega, show ¬ 40 + k = 4 by omega, show ¬ 40 + k < 8 by omega,
    show ¬ 40 + k < 40 by omega]

/-- A word is its five fields: no bit of it stands outside them (R60). -/
theorem cmdWord_fields (w : CmdWord) : cmdWord (cmdArg1 w) (cmdArg0 w) (cmdRsv w) (cmdBuf w) (cmdOp w) = w := by
  apply BitVec.eq_of_getLsbD_eq; intro k hk
  rw [getLsbD_cmdWord]
  by_cases h4 : k < 4
  · simp [h4, cmdOp]
  · by_cases h4' : k = 4
    · subst h4'; simp [cmdBuf]
    · by_cases h8 : k < 8
      · simp [h4, h4', h8, cmdRsv, show k - 5 < 3 by omega, show 5 + (k - 5) = k by omega]
      · by_cases h40 : k < 40
        · simp [h4, h4', h8, h40, cmdArg0, show k - 8 < 32 by omega, show 8 + (k - 8) = k by omega]
        · simp [h4, h4', h8, h40, cmdArg1, show k - 40 < 32 by omega, show 40 + (k - 40) = k by omega]

/-- Bits 7:0 of a word are RSV, BUF and OP (R60). -/
theorem lowByte_eq (w : CmdWord) : w.extractLsb' 0 8 = cmdRsv w ++ BitVec.ofBool (cmdBuf w) ++ cmdOp w := by
  apply BitVec.eq_of_getLsbD_eq; intro k hk
  rw [BitVec.getLsbD_append, BitVec.getLsbD_append]
  simp [cmdRsv, cmdBuf, cmdOp]
  interval_cases k <;> simp
/-- Bits 7:0 of a word determine its control fields, and they it (R60, R65). -/
theorem lowByte_iff (w : CmdWord) (r : BitVec 3) (b : Bool) (o : BitVec 4) :
    w.extractLsb' 0 8 = r ++ BitVec.ofBool b ++ o ↔ cmdRsv w = r ∧ cmdBuf w = b ∧ cmdOp w = o := by
  constructor
  · intro h
    refine ⟨?_, ?_, ?_⟩
    · rw [show cmdRsv w = (w.extractLsb' 0 8).extractLsb' 5 3 by
        apply BitVec.eq_of_getLsbD_eq; intro k hk; simp [cmdRsv, hk], h]
      apply BitVec.eq_of_getLsbD_eq; intro k hk
      rw [BitVec.getLsbD_extractLsb', BitVec.getLsbD_append, BitVec.getLsbD_append]
      rw [if_neg (by omega), if_neg (by omega), show 5 + k - 4 - 1 = k by omega]; simp [hk]
    · rw [show cmdBuf w = (w.extractLsb' 0 8).getLsbD 4 by simp [cmdBuf], h, BitVec.getLsbD_append, BitVec.getLsbD_append]
      simp
    · rw [show cmdOp w = (w.extractLsb' 0 8).extractLsb' 0 4 by
        apply BitVec.eq_of_getLsbD_eq; intro k hk; simp [cmdOp, hk], h]
      apply BitVec.eq_of_getLsbD_eq; intro k hk
      rw [BitVec.getLsbD_extractLsb', BitVec.getLsbD_append]
      simp [hk]
  · rintro ⟨rfl, rfl, rfl⟩; exact lowByte_eq w

/-- The opcode map reads back every opcode's code (R64). -/
@[simp] theorem opcodeOf_code (o : Opcode) : opcodeOf o.code = some o := by cases o <;> rfl

/-- A code the opcode map reads is the code of what it reads (R64). -/
theorem code_of_opcodeOf {c : BitVec 4} {o : Opcode} (h : opcodeOf c = some o) : o.code = c := by
  revert c o; decide

/-- What a word decodes to, from its fields (R66). -/
theorem decode_cmdWord (a1 a0 r b) (o : Opcode) :
    decode (cmdWord a1 a0 r b o.code) =
      if r ≠ 0 ∨ (b = true ∧ o.isFill = false) then .error .reservedFlags else .ok (o.toInstr b a0 a1) := by
  simp [decode]

/-- When a word decodes to a command (R66). -/
theorem decode_ok {w : CmdWord} {i : Instr} (h : decode w = .ok i) :
    ∃ o, opcodeOf (cmdOp w) = some o ∧ cmdRsv w = 0 ∧ (cmdBuf w = true → o.isFill = true) ∧
      i = o.toInstr (cmdBuf w) (cmdArg0 w) (cmdArg1 w) := by
  unfold decode at h
  split at h
  · simp at h
  · next o ho =>
    split at h
    · simp at h
    · next hn =>
      simp only [Except.ok.injEq] at h
      rw [not_or] at hn
      refine ⟨o, ho, by simpa using hn.1, fun hb => ?_, h.symm⟩
      cases hf : o.isFill
      · exact absurd ⟨hb, hf⟩ hn.2
      · rfl

@[simp] theorem toInstr_opcode (o : Opcode) (b a0 a1) : (o.toInstr b a0 a1).opcode = o := by cases o <;> rfl

/-- Every operand a word carries fits its field (R62). -/
theorem toInstr_wellFormed (o : Opcode) (b a0 a1) : (o.toInstr b a0 a1).WellFormed := by
  have hs (v : Word) : IsInt32 v.toInt := ⟨by simpa using BitVec.le_toInt v, by simpa using BitVec.toInt_lt (x := v)⟩
  have hu (v : Word) : IsU32 v.toNat := v.isLt
  cases o <;> simp [Opcode.toInstr, Instr.WellFormed, Instr.wellFormed] <;>
    first | exact hs _ | exact hu _ | exact ⟨hs _, hs _⟩

end Sys2Proof
end

