-- ==== Sys2Proof/Laws/Float.lean ====
section
/-! SUPPORT. What the binary64 operations do, said once: bit length, rounding to 53 bits, and the number an encoding made by
`bits64` stands for. -/

namespace Sys2Proof.Machine

@[simp] theorem bitLength_zero : bitLength 0 = 0 := rfl

theorem lt_two_pow_bitLength (p : Nat) : p < 2 ^ bitLength p := by
  unfold bitLength
  split
  · next h => simp [h]
  · exact Nat.lt_log2_self

theorem two_pow_bitLength_le {p : Nat} (h : p ≠ 0) : 2 ^ (bitLength p - 1) ≤ p := by
  simpa [bitLength, h] using Nat.log2_self_le h

theorem bitLength_pos {p : Nat} (h : p ≠ 0) : 0 < bitLength p := by simp [bitLength, h]

theorem bitLength_le {p k : Nat} (h : p < 2 ^ k) : bitLength p ≤ k := by
  by_cases hp : p = 0
  · simp [hp]
  · have h1 := lt_of_le_of_lt (two_pow_bitLength_le hp) h
    have h2 := (Nat.pow_lt_pow_iff_right (by norm_num : 1 < 2)).mp h1
    have := bitLength_pos hp
    omega

/-- A number that fits 53 bits is not rounded (R128). -/
theorem rne53_of_lt {p : Nat} (h : p < 2 ^ 53) : rne53 p = p := by
  simp only [rne53, h, if_true]

/-- Rounding a wider number keeps its first 53 bits h or takes h + 1, by the dropped bits rem (R128). -/
theorem rne53_cases {p : Nat} (hp : 2 ^ 53 ≤ p) :
    ∃ e h rem, e = bitLength p - 53 ∧ 0 < e ∧ 2 ^ 52 ≤ h ∧ h < 2 ^ 53 ∧ p = h * 2 ^ e + rem ∧ rem < 2 ^ e ∧
      ((rne53 p = h * 2 ^ e ∧ (2 * rem < 2 ^ e ∨ 2 * rem = 2 ^ e ∧ h % 2 = 0)) ∨
       (rne53 p = (h + 1) * 2 ^ e ∧ (2 ^ e < 2 * rem ∨ 2 * rem = 2 ^ e ∧ h % 2 = 1))) := by
  have hp0 : p ≠ 0 := by intro h; simp [h] at hp
  have hlow := two_pow_bitLength_le hp0
  have hhigh := lt_two_pow_bitLength p
  have hb : 54 ≤ bitLength p := by
    have := (Nat.pow_lt_pow_iff_right (by norm_num : 1 < 2)).mp (lt_of_le_of_lt hp hhigh)
    omega
  obtain ⟨e, he⟩ : ∃ e, e = bitLength p - 53 := ⟨_, rfl⟩
  have he0 : 0 < e := by omega
  have hlen : bitLength p = e + 53 := by omega
  rw [hlen] at hlow hhigh
  have hpe : 0 < 2 ^ e := by positivity
  obtain ⟨h, hh⟩ : ∃ h, h = p / 2 ^ e := ⟨_, rfl⟩
  obtain ⟨rem, hr⟩ : ∃ rem, rem = p % 2 ^ e := ⟨_, rfl⟩
  have hlt : rem < 2 ^ e := hr ▸ Nat.mod_lt _ hpe
  have hdm : p = h * 2 ^ e + rem := by rw [hh, hr, Nat.mul_comm]; exact (Nat.div_add_mod p (2 ^ e)).symm
  have hh1 : 2 ^ 52 ≤ h := by
    rw [hh, Nat.le_div_iff_mul_le hpe, ← pow_add]
    exact (congrArg (2 ^ ·) (show 52 + e = e + 53 - 1 by omega)).trans_le hlow
  have hh2 : h < 2 ^ 53 := by
    rw [hh, Nat.div_lt_iff_lt_mul hpe, ← pow_add]
    exact hhigh.trans_eq (congrArg (2 ^ ·) (show e + 53 = 53 + e by omega))
  have hhalf : 2 * 2 ^ (e - 1) = 2 ^ e := by
    rw [← Nat.pow_succ']; congr 1; omega
  have hround : rne53 p =
      (if 2 ^ (e - 1) < rem ∨ (rem = 2 ^ (e - 1) ∧ h % 2 = 1) then h + 1 else h) * 2 ^ e := by
    have hsub : p - h * 2 ^ e = rem := by omega
    simp only [rne53, Nat.not_lt.mpr hp, if_false, ← he, Nat.shiftRight_eq_div_pow, Nat.shiftLeft_eq, ← hh, hsub,
      Nat.one_mul]
  refine ⟨e, h, rem, he, he0, hh1, hh2, hdm, hlt, ?_⟩
  rw [hround]
  split
  · next hc => exact .inr ⟨rfl, by omega⟩
  · next hc => exact .inl ⟨rfl, by omega⟩

/-- Rounding never crosses a number of at most 53 significant bits upwards (R129). -/
theorem rne53_le {p m k : ℕ} (hm : m < 2^53) (h : p ≤ m * 2^k) : rne53 p ≤ m * 2^k := by
  by_cases h53 : p < 2^53
  · rwa [rne53_of_lt h53]
  obtain ⟨e, q, rem, he, he0, h1, h2, hp, hr, hc⟩ := rne53_cases (p := p) (by omega)
  rcases hc with ⟨hq, _⟩ | ⟨hq, hc⟩
  · rw [hq]; omega
  · rw [hq]
    have hpos : 0 < 2^e := by positivity
    have hrem : 0 < rem := by omega
    have hek : e ≤ k := by
      by_contra hlt
      have : m * 2^k < 2^53 * 2^k := Nat.mul_lt_mul_of_pos_right hm (by positivity)
      have h3 : 2^53 * 2^k ≤ 2^52 * 2^e := by
        rw [← pow_add, ← pow_add]; exact Nat.pow_le_pow_right (by norm_num) (by omega)
      have : 2^52 * 2^e ≤ q * 2^e := Nat.mul_le_mul_right _ h1
      omega
    obtain ⟨j, rfl⟩ := Nat.exists_eq_add_of_le hek
    have : q * 2^e < (m * 2^j) * 2^e := by rw [pow_add] at h; nlinarith
    have : q < m * 2^j := Nat.lt_of_mul_lt_mul_right this
    calc (q+1) * 2^e ≤ (m*2^j) * 2^e := Nat.mul_le_mul_right _ this
      _ = m * 2^(e+j) := by rw [pow_add]; ring

/-- Rounding never crosses a number of at most 53 significant bits downwards (R129). -/
theorem rne53_ge {p m k : ℕ} (hm : m < 2^53) (h : m * 2^k ≤ p) : m * 2^k ≤ rne53 p := by
  by_cases h53 : p < 2^53
  · rwa [rne53_of_lt h53]
  obtain ⟨e, q, rem, he, he0, h1, h2, hp, hr, hc⟩ := rne53_cases (p := p) (by omega)
  suffices m * 2^k ≤ q * 2^e by
    rcases hc with ⟨hq, _⟩ | ⟨hq, hc⟩ <;> rw [hq]
    · exact this
    · nlinarith [show 0 < 2^e by positivity]
  by_cases hek : e ≤ k
  · obtain ⟨j, rfl⟩ := Nat.exists_eq_add_of_le hek
    have : (m * 2^j) * 2^e < (q+1) * 2^e := by rw [pow_add] at h; nlinarith
    have : m * 2^j < q + 1 := Nat.lt_of_mul_lt_mul_right this
    calc m * 2^(e+j) = (m*2^j) * 2^e := by rw [pow_add]; ring
      _ ≤ q * 2^e := Nat.mul_le_mul_right _ (by omega)
  · have : m * 2^k < 2^53 * 2^k := Nat.mul_lt_mul_of_pos_right hm (by positivity)
    have h3 : 2^53 * 2^k ≤ 2^52 * 2^e := by
      rw [← pow_add, ← pow_add]; exact Nat.pow_le_pow_right (by norm_num) (by omega)
    have : 2^52 * 2^e ≤ q * 2^e := Nat.mul_le_mul_right _ h1
    omega

/-- RNE64 of a natural number (R128). -/
@[simp] theorem rne64_natCast (p : Nat) : rne64 (p : Int) = rne53 p := by simp [rne64]

/-- RNE64 is odd (R9, R128). -/
theorem rne64_neg (p : Int) : rne64 (-p) = -rne64 p := by
  rcases lt_trichotomy p 0 with h | h | h
  · rw [rne64, if_pos (by omega), rne64, if_neg (by omega), neg_neg]
  · subst h; decide
  · rw [rne64, if_neg (by omega), rne64, if_pos (by omega), neg_neg]

/-! ### What an encoding stands for -/

/-- The fields of a sign, exponent and fraction put together (93_implementation_defined.md G3). -/
theorem value64_fields (sign : Bool) (exponent significand : Nat) (he : 0 < exponent) (he' : exponent < 2 ^ 11)
    (hs : 2 ^ 52 ≤ significand) (hs' : significand < 2 ^ 53) :
    value64 (BitVec.ofBool sign ++ BitVec.ofNat 11 exponent ++ BitVec.ofNat 52 significand) =
      (if sign then -1 else 1) * ((significand : ℚ) * 2 ^ ((exponent : ℤ) - 1075)) := by
  have hf : (BitVec.ofBool sign ++ BitVec.ofNat 11 exponent ++ BitVec.ofNat 52 significand).extractLsb' 0 52 =
      BitVec.ofNat 52 significand := by
    apply BitVec.eq_of_getLsbD_eq; intro k hk
    rw [BitVec.getLsbD_extractLsb', BitVec.getLsbD_append]; simp [hk]
  have hx : (BitVec.ofBool sign ++ BitVec.ofNat 11 exponent ++ BitVec.ofNat 52 significand).extractLsb' 52 11 =
      BitVec.ofNat 11 exponent := by
    apply BitVec.eq_of_getLsbD_eq; intro k hk
    rw [BitVec.getLsbD_extractLsb', BitVec.getLsbD_append, BitVec.getLsbD_append]; simp [hk]
  have hg : (BitVec.ofBool sign ++ BitVec.ofNat 11 exponent ++ BitVec.ofNat 52 significand).getLsbD 63 = sign := by
    rw [BitVec.getLsbD_append, BitVec.getLsbD_append]; simp
  have hmod : significand % 2 ^ 52 = significand - 2 ^ 52 := by omega
  have hfrac : ((significand - 2 ^ 52 : ℕ) : ℚ) = (significand : ℚ) - 2 ^ 52 := by
    rw [Nat.cast_sub hs]; norm_num
  have hne : ((exponent : ℤ) = 0) = False := by simp; omega
  unfold value64
  simp only [hf, hx, hg, BitVec.toNat_ofNat, hmod, Nat.mod_eq_of_lt he', hfrac, hne, if_false]
  cases sign <;> simp

/-- `bits64` writes the normalised number: for a p of at most 53 significant bits, in the normal range, the encoding stands
for p * 2^e (R9, R124, R125). -/
theorem value64_bits64 {p e : ℤ} (hp : p ≠ 0) (hrep : ∃ m k : ℕ, p.natAbs = m * 2 ^ k ∧ m < 2 ^ 53)
    (hlo : -1022 ≤ e + bitLength p.natAbs - 1) (hhi : e + bitLength p.natAbs - 1 ≤ 1023) :
    value64 (bits64 p e) = (p : ℚ) * 2 ^ e := by
  obtain ⟨a, ha⟩ : ∃ a, a = p.natAbs := ⟨_, rfl⟩
  obtain ⟨n, hn⟩ : ∃ n, n = bitLength a := ⟨_, rfl⟩
  have ha0 : a ≠ 0 := by omega
  have hlow : 2 ^ (n - 1) ≤ a := hn ▸ two_pow_bitLength_le ha0
  have hhigh : a < 2 ^ n := hn ▸ lt_two_pow_bitLength a
  have hnpos : 0 < n := hn ▸ bitLength_pos ha0
  rw [← ha, ← hn] at hlo hhi
  obtain ⟨sig, hsig⟩ : ∃ sig, sig = if n ≤ 53 then a <<< (53 - n) else a >>> (n - 53) := ⟨_, rfl⟩
  have hscale : sig * 2 ^ n = a * 2 ^ 53 := by
    by_cases h53 : n ≤ 53
    · rw [hsig, if_pos h53, Nat.shiftLeft_eq, Nat.mul_assoc, ← pow_add, Nat.sub_add_cancel h53]
    · rw [hsig, if_neg h53, Nat.shiftRight_eq_div_pow]
      obtain ⟨m, k, hmk, hm⟩ := hrep
      have hk : n - 53 ≤ k := by
        by_contra hlt
        have h1 : a < 2 ^ 53 * 2 ^ k := by
          rw [ha, hmk]; exact Nat.mul_lt_mul_of_pos_right hm (by positivity)
        rw [← pow_add] at h1
        have := (Nat.pow_lt_pow_iff_right (by norm_num : 1 < 2)).mp (lt_of_le_of_lt hlow h1)
        omega
      have hdvd : 2 ^ (n - 53) ∣ a := by
        rw [ha, hmk]; exact Dvd.dvd.mul_left (pow_dvd_pow 2 hk) m
      obtain ⟨q, hq⟩ := hdvd
      have hnn : 2 ^ n = 2 ^ (n - 53) * 2 ^ 53 := by rw [← pow_add]; exact congrArg (2 ^ ·) (by omega)
      rw [hq, Nat.mul_div_cancel_left q (by positivity), hnn]
      ring
  have hpow : 2 ^ n = 2 * 2 ^ (n - 1) := by rw [← Nat.pow_succ']; exact congrArg (2 ^ ·) (by omega)
  have hs1 : 2 ^ 52 ≤ sig := by
    by_contra hlt
    have : sig * 2 ^ n < 2 ^ 52 * 2 ^ n := Nat.mul_lt_mul_of_pos_right (by omega) (by positivity)
    have : a * 2 ^ 53 < 2 ^ 52 * (2 * 2 ^ (n - 1)) := by rw [← hpow, ← hscale]; exact this
    omega
  have hs2 : sig < 2 ^ 53 := by
    by_contra hlt
    have : 2 ^ 53 * 2 ^ n ≤ sig * 2 ^ n := Nat.mul_le_mul_right _ (by omega)
    rw [hscale, Nat.mul_comm a] at this
    have := Nat.le_of_mul_le_mul_left this (by positivity)
    omega
  obtain ⟨x, hx⟩ : ∃ x : ℕ, (x : ℤ) = e + n + 1022 := ⟨(e + n + 1022).toNat, by omega⟩
  have hbits : bits64 p e = BitVec.ofBool (decide (p < 0)) ++ BitVec.ofNat 11 x ++ BitVec.ofNat 52 sig := by
    simp only [bits64, if_neg hp, ← ha, ← hn, ← hsig, ← hx, Int.toNat_natCast]
  have hrat : (sig : ℚ) * 2 ^ (n : ℤ) = (a : ℚ) * 2 ^ (53 : ℤ) := by exact_mod_cast hscale
  have hval : (sig : ℚ) * 2 ^ ((x : ℤ) - 1075) = (a : ℚ) * 2 ^ e := by
    have h2 : (2 : ℚ) ≠ 0 := by norm_num
    rw [show (x : ℤ) - 1075 = (n : ℤ) + (e - 53) by omega, zpow_add₀ h2, ← mul_assoc, hrat, mul_assoc, ← zpow_add₀ h2]
    congr 2; omega
  rw [hbits, value64_fields _ x sig (by omega) (by omega) hs1 hs2, hval]
  have hpa : (p : ℚ) = if p < 0 then -(a : ℚ) else (a : ℚ) := by
    split
    · have : p = -(a : ℤ) := by omega
      rw [this]; push_cast; ring
    · have : p = (a : ℤ) := by omega
      rw [this]; push_cast; ring
  rw [hpa]
  by_cases hneg : p < 0 <;> simp [hneg]

/-- +0 (R124, R126). -/
@[simp] theorem value64_zero : value64 0#64 = 0 := by simp [value64]

end Sys2Proof.Machine
end

