-- ==== Sys2Proof/Laws/State.lean ====
section
/-! SUPPORT. One lemma per field for each shared update of the state, so that no later proof unfolds a record update. -/

namespace Sys2Proof.Machine

@[simp] theorem respond_engine (st d bs) (s : State) : (respond st d bs s).engine = s.engine := rfl
@[simp] theorem respond_response (st d bs) (s : State) : (respond st d bs s).response = some ⟨⟨st, d⟩, bs⟩ := rfl
@[simp] theorem respond_pending (st d bs) (s : State) : (respond st d bs s).pending = s.pending := rfl
@[simp] theorem respond_delivered (st d bs) (s : State) : (respond st d bs s).delivered = s.delivered := rfl
@[simp] theorem respond_inputs (st d bs) (s : State) : (respond st d bs s).inputs = s.inputs := rfl

@[simp] theorem raise_engine (st n) (s : State) : (raise st n s).engine = s.engine := rfl
@[simp] theorem raise_response (st n) (s : State) :
    (raise st n s).response = some ⟨⟨st, BitVec.ofNat 64 n⟩, []⟩ := rfl
@[simp] theorem raise_pending (st n) (s : State) : (raise st n s).pending = s.pending := rfl
@[simp] theorem raise_delivered (st n) (s : State) : (raise st n s).delivered = s.delivered := rfl
@[simp] theorem raise_inputs (st n) (s : State) : (raise st n s).inputs = s.inputs := rfl

/-- An error changes the response and nothing else (R204). -/
theorem raise_eq (st n) (s : State) :
    raise st n s = { s with response := some ⟨⟨st, BitVec.ofNat 64 n⟩, []⟩ } := rfl

@[simp] theorem scalarDraw_engine (w f) (s : State) : (scalarDraw w f s).engine = some (advance w) := rfl
@[simp] theorem scalarDraw_response (w f) (s : State) :
    (scalarDraw w f s).response = some ⟨⟨.ok, f (rawDraw w)⟩, []⟩ := rfl
@[simp] theorem scalarDraw_pending (w f) (s : State) : (scalarDraw w f s).pending = s.pending := rfl
@[simp] theorem scalarDraw_delivered (w f) (s : State) : (scalarDraw w f s).delivered = s.delivered := rfl
@[simp] theorem scalarDraw_inputs (w f) (s : State) : (scalarDraw w f s).inputs = s.inputs := rfl

@[simp] theorem fillDraw_engine (w g n f) (s : State) : (fillDraw w g n f s).engine = some (advanceN g w) := rfl
@[simp] theorem fillDraw_response (w g n f) (s : State) :
    (fillDraw w g n f s).response = some ⟨⟨.ok, lengthData n⟩, f (rawDraws g w)⟩ := rfl
@[simp] theorem fillDraw_pending (w g n f) (s : State) : (fillDraw w g n f s).pending = s.pending := rfl
@[simp] theorem fillDraw_delivered (w g n f) (s : State) : (fillDraw w g n f s).delivered = s.delivered := rfl
@[simp] theorem fillDraw_inputs (w g n f) (s : State) : (fillDraw w g n f s).inputs = s.inputs := rfl

@[simp] theorem reset_engine : State.reset.engine = none := rfl
@[simp] theorem reset_response : State.reset.response = none := rfl
@[simp] theorem reset_pending : State.reset.pending = [] := rfl
@[simp] theorem reset_delivered : State.reset.delivered = [] := rfl
@[simp] theorem reset_inputs : State.reset.inputs = [] := rfl

/-- SEEDED = 0 says that the words hold no value (R23, R24). -/
@[simp] theorem seeded_eq_false (s : State) : s.seeded = false ↔ s.engine = none := by
  simp [State.seeded]

/-- SEEDED = 1 says that the words hold a value (R23). -/
@[simp] theorem seeded_eq_true (s : State) : s.seeded = true ↔ ∃ w, s.engine = some w := by
  simp [State.seeded, Option.isSome_iff_exists]

end Sys2Proof.Machine
end

