-- ==== Sys2Proof/Laws/Ops.lean ====
section
/-! SUPPORT. What the shared operations can do: the checks, the draws, repeated ADVANCE, and one inversion lemma for every
command. -/

namespace Sys2Proof.Machine

/-! ### The checks -/

theorem whenSeeded_none {s : State} (h : s.engine = none) (body : Words → State) :
    whenSeeded s body = raise .notSeeded 0 s := by
  simp [whenSeeded, h]

theorem whenSeeded_some {s : State} {w : Words} (h : s.engine = some w) (body : Words → State) :
    whenSeeded s body = body w := by
  simp [whenSeeded, h]

@[simp] theorem whenValid_true (n) (s body : State) : whenValid true n s body = body := rfl
@[simp] theorem whenValid_false (n) (s body : State) :
    whenValid false n s body = raise .invalidArgument n s := rfl

/-! ### Repeated ADVANCE -/

@[simp] theorem advanceN_zero (w : Words) : advanceN 0 w = w := rfl
theorem advanceN_succ (n : Nat) (w : Words) : advanceN (n + 1) w = advanceN n (advance w) := rfl

/-- `advanceN` is iteration of ADVANCE (R104). -/
theorem advanceN_eq_iterate (n : Nat) : advanceN n = advance^[n] := by
  induction n with
  | zero => rfl
  | succ n ih => funext w; simp [advanceN_succ, ih]

theorem advanceN_add (m n : Nat) (w : Words) : advanceN (m + n) w = advanceN n (advanceN m w) := by
  simp [advanceN_eq_iterate, Nat.add_comm m n, Function.iterate_add_apply]

@[simp] theorem rawDraws_length (n : Nat) (w : Words) : (rawDraws n w).length = n := by
  induction n generalizing w with
  | zero => rfl
  | succ n ih => simp [rawDraws, ih]

/-- Raw draw `i` of a sequence is the draw from the state after `i` ADVANCEs. -/
theorem rawDraws_eq_map (n : Nat) (w : Words) :
    rawDraws n w = (List.range n).map fun i => rawDraw (advanceN i w) := by
  induction n generalizing w with
  | zero => rfl
  | succ n ih => simp [rawDraws, ih, List.range_succ_eq_map, Function.comp_def, advanceN_succ]

@[simp] theorem advance_s3 (w : Words) : (advance w).s3 = rawDraw w := rfl

/-! ### Every command -/

/-- Of SAMPLE_VARIANT's two formulas, `exec` is the one this hardware has (R5). -/
theorem execWith_config (i : Instr) (s : State) : execWith Config.sampleVariant i s = exec i s := by
  cases i <;> rfl

/-- A command other than SAMPLE does not read SAMPLE_VARIANT (R25). -/
theorem execWith_of_ne_sample (v : SampleVariant) {i : Instr} (h : i ≠ .sample) (s : State) :
    execWith v i s = exec i s := by
  cases i <;> first | rfl | exact absurd rfl h

/-- What a response's beats are for a command that succeeds. -/
def commandBeats : Instr → Words → List Beat
  | .seed _, _ => []
  | .nextRaw, _ => []
  | .next, _ => []
  | .sample, _ => []
  | .nextMax _, _ => []
  | .nextRange _ _, _ => []
  | .fillInt _ n, w => intBeats (rawDraws n w)
  | .fillBytes _ n, w => byteBeats n (rawDraws (byteGroups n) w)

/-- What a response's DATA is for a command that succeeds (R72). -/
def commandData (v : SampleVariant) : Instr → Words → Data
  | .seed _, _ => 0
  | .nextRaw, w => zext64 (rawDraw w)
  | .next, w => zext64 (low31 (rawDraw w))
  | .sample, w => sampleBits v (rawDraw w)
  | .nextMax m, w => sext64 (u32 (bounded (rawDraw w) (nextMaxScale m)))
  | .nextRange lo hi, w => sext64 (u32 (lo + bounded (rawDraw w) (nextRangeScale lo hi)))
  | .fillInt _ n, _ => lengthData n
  | .fillBytes _ n, _ => lengthData n

/-- A draw command on a block that is not seeded (R202). -/
theorem execWith_unseeded (v : SampleVariant) {i : Instr} {s : State} (hi : isDraw i = true) (h : s.engine = none) :
    execWith v i s = .next (raise .notSeeded 0 s) := by
  cases i <;>
    simp_all [isDraw, execWith, exec, execNextRaw, execNext, execSampleAs, execNextMax, execNextRange, execFillInt,
      execFillBytes, whenSeeded_none h]

/-- A draw command on a seeded block whose argument is invalid (R203). -/
theorem execWith_invalid (v : SampleVariant) {i : Instr} {s : State} {w : Words} {d : Nat} (h : s.engine = some w)
    (hd : argumentError i = some d) : execWith v i s = .next (raise .invalidArgument d s) := by
  cases i with
  | seed x => simp [argumentError] at hd
  | nextRaw => simp [argumentError] at hd
  | next => simp [argumentError] at hd
  | sample => simp [argumentError] at hd
  | nextMax m =>
    simp only [argumentError] at hd
    split at hd
    · next hm =>
      obtain rfl : 3 = d := by simpa using hd
      have : nextMaxValid m = false := by simp [nextMaxValid]; omega
      simp [execWith, exec, execNextMax, whenSeeded_some h, this, maxBelowMinusOne]
    · simp at hd
  | nextRange lo hi =>
    simp only [argumentError] at hd
    split at hd
    · next hm =>
      obtain rfl : 2 = d := by simpa using hd
      have : nextRangeValid lo hi = false := by simp [nextRangeValid]; omega
      simp [execWith, exec, execNextRange, whenSeeded_some h, this, rangeInverted]
    · simp at hd
  | fillInt buf n =>
    cases buf <;> simp [argumentError] at hd
    subst hd
    simp [execWith, exec, execFillInt, whenSeeded_some h, bufferAbsent]
  | fillBytes buf n =>
    cases buf <;> simp [argumentError] at hd
    subst hd
    simp [execWith, exec, execFillBytes, whenSeeded_some h, bufferAbsent]

/-- A draw command on a seeded block whose argument is valid: it advances once per unit of output and answers OK with its
DATA and its beats; nothing else changes (R32, R103). -/
theorem execWith_valid (v : SampleVariant) {i : Instr} {s : State} {w : Words} (hdraw : isDraw i = true)
    (h : s.engine = some w) (hd : argumentError i = none) :
    execWith v i s = .next (respond .ok (commandData v i w) (commandBeats i w)
      { s with engine := some (advanceN (drawUnits i) w) }) := by
  cases i with
  | seed x => simp [isDraw] at hdraw
  | nextRaw => simp [execWith, exec, execNextRaw, whenSeeded_some h]; rfl
  | next => simp [execWith, exec, execNext, whenSeeded_some h]; rfl
  | sample => simp [execWith, execSampleAs, whenSeeded_some h]; rfl
  | nextMax m =>
    have hv : nextMaxValid m = true := by simp [argumentError] at hd; simpa [nextMaxValid] using hd
    simp [execWith, exec, execNextMax, whenSeeded_some h, hv]; rfl
  | nextRange lo hi =>
    have hv : nextRangeValid lo hi = true := by simp [argumentError] at hd; simpa [nextRangeValid] using hd
    simp [execWith, exec, execNextRange, whenSeeded_some h, hv]; rfl
  | fillInt buf n =>
    cases buf
    · simp [argumentError] at hd
    · simp [execWith, exec, execFillInt, whenSeeded_some h]; rfl
  | fillBytes buf n =>
    cases buf
    · simp [argumentError] at hd
    · simp [execWith, exec, execFillBytes, whenSeeded_some h]; rfl

/-- SEED in every state (R101). -/
theorem execWith_seed (v : SampleVariant) (x : Word) (s : State) :
    execWith v (.seed x) s = .next (respond .ok 0 [] { s with engine := some (seedWords x) }) := rfl

/-- What a command can do, said once: SEED writes the state words; a draw is refused with a status and changes no state,
or advances once per unit and answers OK. -/
theorem execWith_cases (v : SampleVariant) (i : Instr) (s : State) :
    (∃ x, i = .seed x ∧ execWith v i s = .next (respond .ok 0 [] { s with engine := some (seedWords x) })) ∨
    (isDraw i = true ∧ s.engine = none ∧ execWith v i s = .next (raise .notSeeded 0 s)) ∨
    (isDraw i = true ∧ ∃ w d, s.engine = some w ∧ argumentError i = some d ∧
      execWith v i s = .next (raise .invalidArgument d s)) ∨
    (isDraw i = true ∧ ∃ w, s.engine = some w ∧ argumentError i = none ∧
      execWith v i s = .next (respond .ok (commandData v i w) (commandBeats i w)
        { s with engine := some (advanceN (drawUnits i) w) })) := by
  by_cases hi : isDraw i = true
  · cases he : s.engine with
    | none => exact .inr (.inl ⟨hi, rfl, execWith_unseeded v hi he⟩)
    | some w =>
      cases hd : argumentError i with
      | some d => exact .inr (.inr (.inl ⟨hi, w, d, rfl, rfl, execWith_invalid v he hd⟩))
      | none =>
        exact .inr (.inr (.inr ⟨hi, w, rfl, rfl, execWith_valid v hi he hd⟩))
  · cases i with
    | seed x => exact .inl ⟨x, rfl, execWith_seed v x s⟩
    | _ => simp [isDraw] at hi

/-- A command changes the state words and the response alone, and both depend on the state words alone (R32). -/
theorem execWith_frame (v : SampleVariant) (i : Instr) (e : Option Words) :
    ∃ e' r, ∀ s : State, s.engine = e → execWith v i s = .next { s with engine := e', response := some r } := by
  by_cases hdraw : isDraw i = true
  · cases e with
    | none => exact ⟨none, _, fun s h => by rw [execWith_unseeded v hdraw h, raise_eq, ← h]⟩
    | some w =>
      cases hd : argumentError i with
      | some d => exact ⟨some w, _, fun s h => by rw [execWith_invalid v h hd, raise_eq, ← h]⟩
      | none =>
        exact ⟨_, _, fun s h => by rw [execWith_valid v hdraw h hd]; rfl⟩
  · cases i with
    | seed x => exact ⟨_, _, fun s _ => by rw [execWith_seed]; rfl⟩
    | _ => simp [isDraw] at hdraw

end Sys2Proof.Machine
end

