-- ==== Sys2Proof/Laws/PerInstr.lean ====
section
/-! SUPPORT. One law for every command as syntax: the word `encode` gives it carries its opcode, RSV = 000, and BUF = 0 unless it is a
fill (30_encoding.md R60, R64, R65). -/

namespace Sys2Proof.Laws.EncodeControlBits

/-- The control bits of the command's word are its opcode's, RSV is 000 and only a fill has BUF set. -/
def Statement (i : Instr) : Prop :=
  opcodeOf (cmdOp (encode i)) = some i.opcode ∧ cmdRsv (encode i) = 0 ∧
  (cmdBuf (encode i) = true → i.opcode.isFill = true)

theorem seed (x : Word) : Statement (.seed x) := by simp [Statement, encode, Instr.opcode]

theorem nextRaw : Statement .nextRaw := by simp [Statement, encode, Instr.opcode]

theorem next : Statement .next := by simp [Statement, encode, Instr.opcode]

theorem sample : Statement .sample := by simp [Statement, encode, Instr.opcode]

theorem nextMax (m : Int) : Statement (.nextMax m) := by simp [Statement, encode, Instr.opcode]

theorem nextRange (lo hi : Int) : Statement (.nextRange lo hi) := by simp [Statement, encode, Instr.opcode]

theorem fillInt (buf : Bool) (n : Nat) : Statement (.fillInt buf n) := by
  simp [Statement, encode, Instr.opcode, Opcode.isFill]

theorem fillBytes (buf : Bool) (n : Nat) : Statement (.fillBytes buf n) := by
  simp [Statement, encode, Instr.opcode, Opcode.isFill]

end Sys2Proof.Laws.EncodeControlBits
end

