-- ==== Sys2Proof/Laws/Port.lean ====
section
/-! SUPPORT. What the command port can do: which command a grant takes, what executing a word changes, and one inversion lemma
for the step. -/

namespace Sys2Proof.Machine

/-! ### Taking a requester's oldest command -/

/-- The command taken is the requester's oldest, and the others stay in place. -/
theorem takeRequest_some {r : Nat} {qs rest : List Request} {w : CmdWord} (h : takeRequest r qs = some (w, rest)) :
    ∃ before after, qs = before ++ ⟨r, w⟩ :: after ∧ rest = before ++ after ∧ ∀ p ∈ before, p.requester ≠ r := by
  induction qs generalizing rest with
  | nil => simp [takeRequest] at h
  | cons q qs ih =>
    simp only [takeRequest] at h
    split at h
    · next hq =>
      simp only [Option.some.injEq, Prod.mk.injEq] at h
      obtain ⟨rfl, rfl⟩ := h
      exact ⟨[], qs, by simp [← hq], rfl, by simp⟩
    · next hq =>
      split at h
      · simp at h
      · next w' rest' hr =>
        simp only [Option.some.injEq, Prod.mk.injEq] at h
        obtain ⟨rfl, rfl⟩ := h
        obtain ⟨before, after, hqs, hrest, hb⟩ := ih hr
        refine ⟨q :: before, after, by simp [hqs], by simp [hrest], ?_⟩
        simpa [hq] using hb

/-- A requester's oldest command is taken wherever it stands. -/
theorem takeRequest_append {r : Nat} {before : List Request} (after : List Request) (w : CmdWord)
    (hb : ∀ p ∈ before, p.requester ≠ r) :
    takeRequest r (before ++ ⟨r, w⟩ :: after) = some (w, before ++ after) := by
  induction before with
  | nil => simp [takeRequest]
  | cons q qs ih =>
    have hq : q.requester ≠ r := hb q (by simp)
    have hqs : ∀ p ∈ qs, p.requester ≠ r := fun p hp => hb p (by simp [hp])
    simp [takeRequest, hq, ih hqs]

/-- A grant finds nothing only when the requester has nothing outstanding. -/
theorem takeRequest_none {r : Nat} {qs : List Request} :
    takeRequest r qs = none ↔ ∀ p ∈ qs, p.requester ≠ r := by
  induction qs with
  | nil => simp [takeRequest]
  | cons q qs ih =>
    by_cases hq : q.requester = r
    · simp [takeRequest, hq]
    · cases ht : takeRequest r qs with
      | none => simpa [takeRequest, hq, ht] using ih.mp ht
      | some p =>
        have := mt ih.mpr (by simp [ht])
        simp only [takeRequest, hq, ht, if_false]
        simpa [hq] using this

/-! ### Executing a word -/

theorem runWord_ok (v : SampleVariant) {w : CmdWord} {i : Instr} (h : decode w = .ok i) (s : State) :
    runWord v w s = execWith v i s := by
  simp [runWord, h]

theorem runWord_error (v : SampleVariant) {w : CmdWord} {e : DecodeError} (h : decode w = .error e) (s : State) :
    runWord v w s = .next (raise .illegalCommand e.detail s) := by
  simp [runWord, h]

/-- Executing a word goes on, and changes the state words and the response alone (R32, R68). -/
theorem runWord_next (v : SampleVariant) (w : CmdWord) (s : State) :
    ∃ r, runWord v w s = .next { s with engine := (commandEffect v w s.engine).1, response := some r } ∧
      (commandEffect v w s.engine).2 = some r := by
  cases hd : decode w with
  | error e =>
    refine ⟨⟨⟨.illegalCommand, BitVec.ofNat 64 e.detail⟩, []⟩, ?_, ?_⟩ <;>
      simp [commandEffect, runWord_error v hd, raise_eq]
  | ok i =>
    obtain ⟨e', r, h⟩ := execWith_frame v i s.engine
    exact ⟨r, by simp [commandEffect, runWord_ok v hd, h], by simp [commandEffect, runWord_ok v hd, h]⟩

/-! ### The step -/

/-- What a grant can do. -/
theorem grant_cases (v : SampleVariant) (r : Nat) (s : State) :
    (takeRequest r s.pending = none ∧ grant v r s = .next s) ∨
    ∃ w rest q, takeRequest r s.pending = some (w, rest) ∧ (commandEffect v w s.engine).2 = some q ∧
      grant v r s = .next { s with
        engine := (commandEffect v w s.engine).1, response := none, pending := rest
        delivered := s.delivered ++ [⟨r, q⟩] } := by
  cases ht : takeRequest r s.pending with
  | none => exact .inl ⟨rfl, by simp [grant, ht]⟩
  | some p =>
    obtain ⟨w, rest⟩ := p
    obtain ⟨q, hrun, hq⟩ := runWord_next v w { s with pending := rest }
    exact .inr ⟨w, rest, q, rfl, hq, by simp [grant, ht, hrun, finishCommand, returnResponse]⟩

/-- What a step can do, said once: wait, let a requester present a command, serve a requester's oldest command, find nothing to
serve, or reset. -/
theorem stepWith_cases (v : SampleVariant) (s : State) :
    (s.inputs = [] ∧ stepWith v s = .next s) ∨
    (∃ r w rest, s.inputs = .present r w :: rest ∧
      stepWith v s = .next { s with inputs := rest, pending := s.pending ++ [⟨r, w⟩] }) ∨
    (∃ r rest, s.inputs = .grant r :: rest ∧ takeRequest r s.pending = none ∧
      stepWith v s = .next { s with inputs := rest }) ∨
    (∃ r rest w qs q, s.inputs = .grant r :: rest ∧ takeRequest r s.pending = some (w, qs) ∧
      (commandEffect v w s.engine).2 = some q ∧
      stepWith v s = .next { s with
        engine := (commandEffect v w s.engine).1, response := none, pending := qs
        delivered := s.delivered ++ [⟨r, q⟩], inputs := rest }) ∨
    (∃ rest, s.inputs = .reset :: rest ∧ stepWith v s = .next { State.reset with inputs := rest }) := by
  cases hi : s.inputs with
  | nil => exact .inl ⟨rfl, by simp [stepWith, hi]⟩
  | cons e rest =>
    cases e with
    | present r w => exact .inr (.inl ⟨r, w, rest, rfl, by simp [stepWith, hi, accept, present]⟩)
    | reset => exact .inr (.inr (.inr (.inr ⟨rest, rfl, by simp [stepWith, hi, accept, resetBlock]⟩)))
    | grant r =>
      rcases grant_cases v r { s with inputs := rest } with ⟨ht, h⟩ | ⟨w, qs, q, ht, hq, h⟩
      · exact .inr (.inr (.inl ⟨r, rest, rfl, ht, by simpa [stepWith, hi, accept] using h⟩))
      · exact .inr (.inr (.inr (.inl ⟨r, rest, w, qs, q, rfl, ht, hq, by simpa [stepWith, hi, accept] using h⟩)))

end Sys2Proof.Machine
end

