-- ==== Sys2Proof/Tests/Slice0.lean ====
section
/-! SUPPORT. Tests of the model against the spec's own worked examples and vectors (95_test_vectors.md; the section is named
at each group), the smoke test of WellFormed, and for every obligation with hypotheses a witness that meets them. -/

namespace Sys2Proof.Tests

open Sys2Proof.Machine

/-! ### Helpers -/

/-- The next state of an outcome, if it is one. -/
def nextOf (o : Host.Outcome State Fault Refusal) : Option State :=
  match o with
  | .next t => some t
  | .fault _ => none
  | .refused _ => none

/-- The state words an outcome leaves. -/
def wordsAfter (o : Host.Outcome State Fault Refusal) : Option Words := (nextOf o).bind State.engine

/-- The response an outcome holds. -/
def responseAfter (o : Host.Outcome State Fault Refusal) : Option Response := (nextOf o).bind State.response

/-- A block with these state words. -/
def seededWith (w : Words) : State := { State.reset with engine := some w }

/-- The state words after SEED 0 (vectors 2.2). -/
def words0 : Words := ⟨0x00000001, 0x6C078966, 0xDD5254A4, 0x2559C4E4⟩

/-- The block after SEED 0. -/
def seeded0 : State := seededWith words0

/-- A block not seeded on which requesters 0 and 1 have each presented a command: SEED 0 and NEXT_RAW. -/
def twoRequesters : State := { State.reset with pending := [⟨0, 0x000000000000000001⟩, ⟨1, 0x000000000000000002⟩] }

/-! ### WellFormed: one ill-formed term for each check, and the boundary values it admits (R4, R62) -/

theorem test_wf_nextMax_above : (Instr.nextMax (2 ^ 31)).wellFormed = false := by decide
theorem test_wf_nextMax_below : (Instr.nextMax (-2 ^ 31 - 1)).wellFormed = false := by decide
theorem test_wf_nextRange_min : (Instr.nextRange (-2 ^ 31 - 1) 0).wellFormed = false := by decide
theorem test_wf_nextRange_max : (Instr.nextRange 0 (2 ^ 31)).wellFormed = false := by decide
theorem test_wf_fillInt_long : (Instr.fillInt true (2 ^ 32)).wellFormed = false := by decide
theorem test_wf_fillBytes_long : (Instr.fillBytes true (2 ^ 32)).wellFormed = false := by decide
theorem test_wf_boundaries : (Instr.nextRange (-2 ^ 31) (2 ^ 31 - 1)).wellFormed = true ∧
    (Instr.fillInt true (2 ^ 32 - 1)).wellFormed = true := by decide

/-! ### Decoding: words written out field by field from R60 and R64, `ARG1 ++ ARG0 ++ RSV ++ BUF ++ OP` -/

theorem test_decode_seed :
    decode (0xFFFFFFFF#32 ++ 0x69C77F92#32 ++ 0b000#3 ++ 0b0#1 ++ 0b0001#4) = .ok (.seed 0x69C77F92) := by decide
theorem test_decode_nextRaw :
    decode (0x12345678#32 ++ 0x9ABCDEF0#32 ++ 0b000#3 ++ 0b0#1 ++ 0b0010#4) = .ok .nextRaw := by decide
theorem test_decode_next :
    decode (0x00000000#32 ++ 0x00000000#32 ++ 0b000#3 ++ 0b0#1 ++ 0b0011#4) = .ok .next := by decide
theorem test_decode_sample :
    decode (0x00000000#32 ++ 0x00000000#32 ++ 0b000#3 ++ 0b0#1 ++ 0b0100#4) = .ok .sample := by decide
theorem test_decode_nextMax :
    decode (0x00000000#32 ++ 0x80000000#32 ++ 0b000#3 ++ 0b0#1 ++ 0b0101#4) = .ok (.nextMax (-2147483648)) := by decide
theorem test_decode_nextRange :
    decode (0x7FFFFFFF#32 ++ 0x80000000#32 ++ 0b000#3 ++ 0b0#1 ++ 0b0110#4) =
      .ok (.nextRange (-2147483648) 2147483647) := by decide
theorem test_decode_fillInt :
    decode (0x00000000#32 ++ 0x00000003#32 ++ 0b000#3 ++ 0b1#1 ++ 0b0111#4) = .ok (.fillInt true 3) := by decide
theorem test_decode_fillBytes :
    decode (0x00000000#32 ++ 0xFFFFFFFF#32 ++ 0b000#3 ++ 0b0#1 ++ 0b1000#4) = .ok (.fillBytes false 4294967295) := by
  decide

/-- Illegal words (vectors 2.10). -/
theorem test_decode_illegal :
    decode 0x000000000000000000 = .error .reservedOpcode ∧ decode 0x00000000000000000F = .error .reservedOpcode ∧
    decode 0x0000000000000000E9 = .error .reservedOpcode ∧ decode 0x000000000000000022 = .error .reservedFlags ∧
    decode 0x000000000000000012 = .error .reservedFlags ∧ decode 0x000000000000000011 = .error .reservedFlags ∧
    decode 0x000000000000000037 = .error .reservedFlags := by decide

/-- The words of programs P2 and P4 (section 3). -/
theorem test_encode_words :
    encode (.seed 0x3039) = 0x000000000000303901 ∧ encode (.nextRange 50 150) = 0x000000960000003206 ∧
    encode (.nextMax (-1)) = 0x00000000FFFFFFFF05 ∧ encode (.fillBytes true 7) = 0x000000000000000718 := by decide

theorem test_decodeTableWord : decodeTableWord 72 0x000000960000003206 = some (.nextRange 50 150) ∧
    decodeTableWord 8 0x09 = none ∧ decodeTableWord 8 0x02 = some .nextRaw := by decide

/-! ### The shared functions -/

/-- Vectors 2.1. -/
theorem test_seedTransform :
    seedTransform 0x3FFFFFFF = 0xD3F8769C ∧ seedTransform 0xC0000000 = 0x04169C30 ∧
    seedTransform 0xFFFFFFFF = 0x4FE1DA6D ∧ seedTransform 0x69C77F92 = 0x00000000 := by decide

/-- Vectors 2.3, the ADVANCE rows. -/
theorem test_rawDraw :
    rawDraw ⟨1, 0, 0, 0⟩ = 0x00000809 ∧ rawDraw ⟨0, 0, 0, 1⟩ = 0x00000001 ∧
    rawDraw ⟨0xFFFFFFFF, 0, 0, 0⟩ = 0x000007F8 ∧ rawDraw ⟨0x80000000, 0, 0, 0⟩ = 0x80800000 ∧
    rawDraw ⟨0, 0, 0, 0x80000000⟩ = 0x80001000 ∧ advance ⟨1, 2, 3, 4⟩ = ⟨2, 3, 4, 0x80D⟩ := by decide

/-- Vectors 2.3, the raw sequence of seed 12345. -/
theorem test_rawDraws : rawDraws 5 (seedWords 12345) =
    [0x0F51EF40, 0xA4FB633A, 0x4FA3C97F, 0xFD9E2333, 0x7D35F82F] := by decide

/-- Vectors 2.5, UNSIGNED_DIV. -/
theorem test_sampleU :
    sampleU 0x00000000 = 0x0000000000000000 ∧ sampleU 0x00000001 = 0x3DF0000000000000 ∧
    sampleU 0x7FFFFFFF = 0x3FDFFFFFFFC00000 ∧ sampleU 0xFFFFFFFF = 0x3FEFFFFFFFE00000 := by decide

/-- Vectors 2.5, SIGNED_MUL. -/
theorem test_sampleS :
    sampleS 0x00000000 = 0x0000000000000000 ∧ sampleS 0x00000001 = 0x3E00000000200000 ∧
    sampleS 0x2559C846 = 0x3FD2ACE4232559C8 ∧ sampleS 0x7FFFFFFF = 0x3FF0000000000000 ∧
    sampleS 0x80000000 = 0xBFF0000000200000 ∧ sampleS 0x80000001 = 0xBFF0000000000000 ∧
    sampleS 0xFFFFFFFF = 0xBE00000000200000 := by decide

/-- Vectors 2.6. -/
theorem test_bounded :
    bounded 0x80000003 (2 ^ 31 - 1) = 1073741825 ∧ bounded 0x5FFFFFFF 1610612737 = 603979776 ∧
    bounded 0xE3955555 4194307 = 3728728 ∧ bounded 0xFFFFFFFF (2 ^ 32) = 4294967295 ∧
    bounded 0xFFFFFFFF (-2 ^ 31) = -2147483648 ∧ bounded 0x00000002 (-2 ^ 31) = -1 := by decide

/-! ### One step of each command -/

/-- Vectors 2.2: seed 0xFFFFFFFF, on a seeded block. -/
theorem test_seed_reseeds : wordsAfter (exec (.seed 0xFFFFFFFF) seeded0) =
    some ⟨0x4FE1DA6D, 0xEAF2F89D, 0x2D3AA457, 0x6C766554⟩ := by decide

/-- Program P1 step 2. -/
theorem test_nextRaw : responseAfter (exec .nextRaw seeded0) = some ⟨⟨.ok, 0x2559C846⟩, []⟩ ∧
    wordsAfter (exec .nextRaw seeded0) = some ⟨0x6C078966, 0xDD5254A4, 0x2559C4E4, 0x2559C846⟩ := by decide

/-- Vectors 2.4: the fourth draw of seed 0 has bit 31 set. -/
theorem test_next_clears_bit31 : responseAfter (exec .next (seededWith (advanceN 3 words0))) =
    some ⟨⟨.ok, 0x51682915⟩, []⟩ := by decide

/-- Program P4 step 6, under each SAMPLE_VARIANT. -/
theorem test_sample_variants :
    responseAfter (exec .sample (seededWith ⟨0xDD5254A4, 0xDD524F0E, 0xDD525CAD, 0x8D4EB2D8⟩)) =
      some ⟨⟨.ok, 0x3FE85EC414200000⟩, []⟩ ∧
    responseAfter (execWith .signedMul .sample (seededWith ⟨0xDD5254A4, 0xDD524F0E, 0xDD525CAD, 0x8D4EB2D8⟩)) =
      some ⟨⟨.ok, 0xBFDE84EFAFBD09DF⟩, []⟩ := by decide

/-- Vectors 2.7: the wrap at 2^31-1, and the greatest operand that does not wrap. -/
theorem test_nextMax : responseAfter (exec (.nextMax 2147483647) seeded0) = some ⟨⟨.ok, 0xFFFFFFFFED531BDD⟩, []⟩ ∧
    responseAfter (exec (.nextMax 2147483646) seeded0) = some ⟨⟨.ok, 0x12ACE422⟩, []⟩ := by decide

/-- Vectors 2.7: an operand below -1 is refused and the state does not advance. -/
theorem test_nextMax_rejects : responseAfter (exec (.nextMax (-2)) seeded0) = some ⟨⟨.invalidArgument, 3⟩, []⟩ ∧
    wordsAfter (exec (.nextMax (-2)) seeded0) = some words0 := by decide

/-- Vectors 2.8. -/
theorem test_nextRange : responseAfter (exec (.nextRange (-5) 5) seeded0) = some ⟨⟨.ok, 0xFFFFFFFFFFFFFFFC⟩, []⟩ ∧
    responseAfter (exec (.nextRange (-10) 2147483647) seeded0) = some ⟨⟨.ok, 313320474⟩, []⟩ ∧
    responseAfter (exec (.nextRange (-2147483648) 2147483647) seeded0) = some ⟨⟨.ok, 0xFFFFFFFFA559C846⟩, []⟩ := by
  decide

/-- Vectors 2.8: an inverted range. -/
theorem test_nextRange_rejects : responseAfter (exec (.nextRange 150 50) seeded0) = some ⟨⟨.invalidArgument, 2⟩, []⟩ := by
  decide

/-- Program P3 step 2: FILL_INT 3 from seed 0xFFFFFFFF. -/
theorem test_fillInt : responseAfter (exec (.fillInt true 3) (seededWith (seedWords 0xFFFFFFFF))) =
      some ⟨⟨.ok, 3⟩, [⟨0xF, 0x2D05E805⟩, ⟨0xF, 0x504ECB28⟩, ⟨0xF, 0x28AEC56A⟩]⟩ ∧
    wordsAfter (exec (.fillInt true 3) (seededWith (seedWords 0xFFFFFFFF))) =
      some ⟨0x6C766554, 0x2D05E805, 0x504ECB28, 0xA8AEC56A⟩ := by decide

/-- Vectors 2.9: an absent buffer, and length 0. -/
theorem test_fillInt_corners : responseAfter (exec (.fillInt false 3) seeded0) = some ⟨⟨.invalidArgument, 1⟩, []⟩ ∧
    responseAfter (exec (.fillInt true 0) seeded0) = some ⟨⟨.ok, 0⟩, []⟩ ∧
    wordsAfter (exec (.fillInt true 0) seeded0) = some words0 := by decide

/-- Vectors 2.9: FILL_BYTES 9 and its state. -/
theorem test_fillBytes : responseAfter (exec (.fillBytes true 9) seeded0) =
      some ⟨⟨.ok, 9⟩, [⟨0xF, 0x2559C846⟩, ⟨0xF, 0x75453932⟩, ⟨0x1, 0x0000004A⟩]⟩ ∧
    wordsAfter (exec (.fillBytes true 9) seeded0) = some (advanceN 3 words0) := by decide

/-- Vectors 2.9: FILL_BYTES 7, by its bytes. -/
theorem test_fillBytes_bytes : (responseAfter (exec (.fillBytes true 7) seeded0)).map (fun r => r.beats.flatMap Beat.bytes) =
    some [0x46, 0xC8, 0x59, 0x25, 0x32, 0x39, 0x45] := by decide

/-! ### The port -/

/-- The word the host asks about runs as the first command after reset (R202). -/
theorem test_fetch_first : (nextOf (step (State.reset.withFetchWord 72 0x02))).map State.delivered =
    some [⟨0, ⟨⟨.notSeeded, 0⟩, []⟩⟩] := by decide

/-- Program P5 step 3, an illegal word, through the port. -/
theorem test_illegal_word : (nextOf (step (State.reset.withFetchWord 72 0xE9))).map State.delivered =
    some [⟨0, ⟨⟨.illegalCommand, 1⟩, []⟩⟩] := by decide

/-- The bits of a header and of a beat (R70, R73; FILL_BYTES 7's last beat). -/
theorem test_response_bits : Header.toWord ⟨.illegalCommand, 2⟩ = 0x30000000000000002 ∧
    Beat.toWord ⟨0x7, 0x00453932⟩ = 0x700453932 := by decide

/-- R75: `.word`, a hexadecimal operand, and a line that is no command. -/
theorem test_assemble :
    assembleLine ['.', 'w', 'o', 'r', 'd', ' ', '0', 'x', '0', '_', 'E', '9'] = some 0x0000000000000000E9 ∧
    assembleLine ['S', 'E', 'E', 'D', ' ', '0', 'x', 'F', 'F', 'F', 'F', 'F', 'F', 'F', 'F'] = some 0x00000000FFFFFFFF01 ∧
    assembleLine ['N', 'E', 'X', 'T', ' ', '1'] = none := by decide

end Sys2Proof.Tests

/-! ### Witnesses: for every obligation with hypotheses, states and operands that meet them, one for each clause -/

namespace Sys2Proof.Tests

open Sys2Proof.Machine

theorem seeded0_engine : seeded0.engine = some words0 := rfl

theorem witness_ResetDiscardsCommandsAndUnseeds :
    (∃ rest, ({ seeded0 with pending := [⟨0, 2⟩], inputs := [.reset, .grant 0] } : State).inputs = .reset :: rest) ∧
    State.reset.seeded = false ∧ isDraw .nextRaw = true ∧ isDraw (.fillBytes false 0) = true := by
  exact ⟨⟨_, rfl⟩, rfl, rfl, rfl⟩

theorem witness_DrawsBeforeSeedAnswerNotSeeded :
    State.reset.engine = none ∧ isDraw (.nextMax (-2)) = true ∧ isDraw (.fillInt false 0) = true := ⟨rfl, rfl, rfl⟩

theorem witness_OnlySeedSetsAndOnlyResetClearsSeeded :
    (∃ t, stepWith .unsignedDiv (State.reset.withFetchWord 72 0x01) = .next t ∧ t.seeded = true) ∧
    ∃ t, stepWith .unsignedDiv { seeded0 with inputs := [.reset] } = .next t ∧ t.seeded = false :=
  ⟨⟨_, rfl, rfl⟩, ⟨_, rfl, rfl⟩⟩

theorem witness_encodings :
    (0xFFFFFFFF0000000001 : CmdWord).extractLsb' 0 8 = 0x01 ∧ (0x123456789ABCDEF002 : CmdWord).extractLsb' 0 8 = 0x02 ∧
    (0x000000000000000003 : CmdWord).extractLsb' 0 8 = 0x03 ∧ (0x000000000000000004 : CmdWord).extractLsb' 0 8 = 0x04 ∧
    (0x000000008000000005 : CmdWord).extractLsb' 0 8 = 0x05 ∧ (0x7FFFFFFF8000000006 : CmdWord).extractLsb' 0 8 = 0x06 ∧
    (0x00000000FFFFFFFF07 : CmdWord).extractLsb' 5 3 = 0 ∧ (0x00000000FFFFFFFF07 : CmdWord).extractLsb' 0 4 = 0x7 ∧
    (0x000000000000000018 : CmdWord).extractLsb' 5 3 = 0 ∧ (0x000000000000000018 : CmdWord).extractLsb' 0 4 = 0x8 := by
  decide

theorem witness_SeedTransformIsBijective : (0 : Word) ≠ 0xFFFFFFFF := by decide

theorem witness_AdvanceIsBijective : (⟨0, 0, 0, 0x80000000⟩ : Words) ≠ Words.zero := by decide

theorem witness_StepKeepsEngineNotAllZero :
    EngineNotAllZero ({ seeded0 with pending := [⟨0, 2⟩], inputs := [.grant 0] } : State) ∧
    ∃ t, stepWith .signedMul { seeded0 with pending := [⟨0, 2⟩], inputs := [.grant 0] } = .next t ∧
      t.engine = some (advance words0) := by
  refine ⟨fun w h => ?_, ⟨_, rfl, rfl⟩⟩
  obtain rfl : words0 = w := by simpa [seeded0, seededWith] using h
  decide

/-- The hypotheses of the scalar draws: a seeded and an unseeded block. -/
theorem witness_scalar_draws : seeded0.engine = some words0 ∧ State.reset.engine = none := ⟨rfl, rfl⟩

theorem witness_RoundingIsNearestTiesToEven : |(2 ^ 53 + 1 : ℤ)| < 2 ^ 64 ∧ |(-(2 ^ 64 - 1) : ℤ)| < 2 ^ 64 := by
  constructor <;> norm_num

/-- Between 2^62 - 2^9 and 2^62 there is no binary64 number. -/
theorem binary64_gap {y : ℚ} (h : IsBinary64 y) : y ≤ 2 ^ 62 - 2 ^ 9 ∨ 2 ^ 62 ≤ y := by
  obtain ⟨m, k, hm, -, -, rfl⟩ := h
  have hm' := abs_lt.mp hm
  by_cases hk : 9 ≤ k
  · obtain ⟨j, rfl⟩ := Int.le.dest hk
    have hy : (m : ℚ) * 2 ^ (9 + (j : ℤ)) = ((m * 2 ^ j : ℤ) : ℚ) * 2 ^ 9 := by
      rw [zpow_add₀ two_ne_zero, zpow_natCast, show (2 : ℚ) ^ (9 : ℤ) = 2 ^ 9 by norm_num]; push_cast; ring
    rw [hy]
    rcases lt_or_ge (m * 2 ^ j : ℤ) (2 ^ 53) with hz | hz
    · left
      have : ((m * 2 ^ j : ℤ) : ℚ) ≤ 2 ^ 53 - 1 := by exact_mod_cast Int.le_sub_one_of_lt hz
      linarith
    · right
      have : (2 ^ 53 : ℚ) ≤ ((m * 2 ^ j : ℤ) : ℚ) := by exact_mod_cast hz
      linarith
  · left
    have hpow : (2 : ℚ) ^ k ≤ 2 ^ 9 := by exact_mod_cast zpow_le_zpow_right₀ (one_le_two (α := ℚ)) (by omega : k ≤ 9)
    have hpos : (0 : ℚ) < 2 ^ k := by positivity
    have hmq : (m : ℚ) ≤ 2 ^ 53 - 1 := by exact_mod_cast Int.le_sub_one_of_lt hm'.2
    nlinarith

/-- R129's example, where the product 2^62 - 1 rounds up to 2^62. -/
theorem witness_BoundedFloorsTheRoundedProduct :
    (-2 ^ 31 : ℤ) ≤ 2 ^ 31 - 1 ∧ (2 ^ 31 - 1 : ℤ) ≤ 2 ^ 32 ∧
    IsRne64 (((0x80000001 : Word).toNat : ℚ) * (2 ^ 31 - 1 : ℤ)) (2 ^ 62) ∧
    bounded 0x80000001 (2 ^ 31 - 1) = ⌊(2 ^ 62 : ℚ) / 2 ^ 32⌋ := by
  have hx : ((0x80000001 : Word).toNat : ℚ) * (2 ^ 31 - 1 : ℤ) = 2 ^ 62 - 1 := by
    rw [show (0x80000001 : Word).toNat = 2 ^ 31 + 1 from rfl]; norm_num
  rw [hx]
  refine ⟨by norm_num, by norm_num, ⟨⟨2 ^ 52, 10, by norm_num, by norm_num, by norm_num, by norm_num⟩, ?_, ?_⟩, ?_⟩
  · intro y hy
    rw [show (2 ^ 62 - 1 - 2 ^ 62 : ℚ) = -1 by norm_num, abs_neg, abs_one, le_abs]
    rcases binary64_gap hy with h | h
    · left; linarith
    · right; linarith
  · intro y hy hne h
    rw [show (2 ^ 62 - 1 - 2 ^ 62 : ℚ) = -1 by norm_num, abs_neg, abs_one] at h
    rcases binary64_gap hy with h' | h'
    · rw [abs_of_pos (by linarith)] at h; linarith
    · rw [abs_of_nonpos (by linarith)] at h; exact absurd (by linarith) hne
  · rw [show bounded 0x80000001 (2 ^ 31 - 1) = 2 ^ 30 by decide, show (2 ^ 62 : ℚ) / 2 ^ 32 = ((2 ^ 30 : ℤ) : ℚ) by norm_num,
      Int.floor_intCast]

theorem witness_BoundedIsExactFloorOrOneMore :
    |((0xFFFFFFFF : Word).toNat : ℤ) * (-2 ^ 21)| < 2 ^ 53 ∧ |(-2 ^ 21 : ℤ)| ≤ 2 ^ 21 ∧ (0 : ℤ) ≤ 2 ^ 32 := by decide

theorem witness_NextMaxResultLiesInRange :
    (1 : ℤ) ≤ 2 ^ 32 ∧ (0 : ℤ) ≤ 0 ∧ (2 ^ 31 - 2 : ℤ) ≤ 2 ^ 31 - 2 ∧ seeded0.engine = some words0 := by
  exact ⟨by norm_num, le_rfl, le_rfl, rfl⟩

theorem witness_NextRangeResultLiesInRange :
    IsInt32 (-2 ^ 31) ∧ IsInt32 (2 ^ 31 - 1) ∧ (-2 ^ 31 : ℤ) ≤ 2 ^ 31 - 1 ∧ seeded0.engine = some words0 := by
  exact ⟨by decide, by decide, by decide, rfl⟩

/-- One operand for each clause: below -1, -1, 0, the greatest that does not wrap, and the one that wraps. -/
theorem witness_NextMaxScalesOrRejects :
    (IsInt32 (-2) ∧ (-2 : ℤ) < -1) ∧ IsInt32 (-1) ∧ IsInt32 0 ∧ (IsInt32 (2 ^ 31 - 2) ∧ (-1 : ℤ) ≤ 2 ^ 31 - 2) ∧
    IsInt32 (2 ^ 31 - 1) ∧ seeded0.engine = some words0 ∧ State.reset.engine = none := by
  exact ⟨by decide, by decide, by decide, by decide, by decide, rfl, rfl⟩

/-- One pair for each clause: inverted, ordered, equal, and the full range. -/
theorem witness_NextRangeScalesOrRejects :
    (IsInt32 0 ∧ IsInt32 (-1) ∧ (-1 : ℤ) < 0) ∧ (IsInt32 (-2 ^ 31) ∧ IsInt32 (2 ^ 31 - 1) ∧ (-2 ^ 31 : ℤ) ≤ 2 ^ 31 - 1) ∧
    (0 : ℤ) ≤ 2 ^ 31 - 2 ∧ seeded0.engine = some words0 ∧ State.reset.engine = none := by
  exact ⟨by decide, by decide, by decide, rfl, rfl⟩

theorem witness_OnlySampleReadsTheVariant : (Instr.nextMax 99) ≠ .sample := by decide

theorem witness_fills : IsU32 0 ∧ IsU32 (2 ^ 32 - 1) ∧ seeded0.engine = some words0 ∧ State.reset.engine = none := by
  exact ⟨by decide, by decide, rfl, rfl⟩

theorem witness_FillBytesBeatFraming :
    IsU32 7 ∧ (byteBeats 7 (rawDraws 2 words0))[1]? = some ⟨0x7, 0x00453932⟩ ∧ 1 + 1 = (7 + 3) / 4 ∧ 7 % 4 ≠ 0 ∧
    (byteBeats 7 (rawDraws 2 words0))[0]? = some ⟨0xF, 0x2559C846⟩ := by decide

theorem witness_FillIntEqualsSuccessiveNexts : IsU32 3 ∧ 2 < 3 ∧
    (execAllOk Config.sampleVariant (List.replicate 3 .next) seeded0).isSome = true := by decide

/-- A draw that succeeds and one that does not. -/
theorem witness_DrawsAdvanceOncePerUnit :
    (∃ t, execWith .signedMul (.fillBytes true 5) seeded0 = .next t ∧ respondedOk t = true) ∧
    ∃ t, execWith .signedMul (.fillBytes false 5) seeded0 = .next t ∧ respondedOk t = false :=
  ⟨⟨_, rfl, rfl⟩, ⟨_, rfl, rfl⟩⟩

theorem witness_DrawSequencesArePathIndependent :
    (execAllOk .unsignedDiv [.next, .fillBytes true 5] seeded0).isSome = true ∧
    (execAllOk .signedMul [.fillInt true 3] seeded0).isSome = true ∧
    ([Instr.next, .fillBytes true 5].map drawUnits).sum = ([Instr.fillInt true 3].map drawUnits).sum ∧
    (∀ i ∈ [Instr.next, .fillBytes true 5], isDraw i = true) ∧ seeded0.seeded = true := by decide

theorem witness_ErrorsLeaveStateUnchanged :
    ∃ t r, runWord .unsignedDiv 0x000000000000000022 seeded0 = .next t ∧ t.response = some r ∧ r.header.status ≠ .ok :=
  ⟨_, _, rfl, rfl, by decide⟩

/-- One word for each level of the priority. -/
theorem witness_ErrorPriority :
    (0x000000000000000000 : CmdWord).extractLsb' 0 4 = 0 ∧ 9 ≤ ((0x0000000000000000E9 : CmdWord).extractLsb' 0 4).toNat ∧
    (0x000000000000000028 : CmdWord).extractLsb' 5 3 ≠ 0 ∧
    ((0x000000000000000016 : CmdWord).getLsbD 4 = true ∧ ((0x000000000000000016 : CmdWord).extractLsb' 0 4).toNat < 7) ∧
    decode 0x000000010000000506 = .ok (.nextRange 5 1) ∧ argumentError (.nextRange 5 1) = some 2 ∧
    State.reset.engine = none ∧ seeded0.seeded = true := by decide

theorem witness_InvalidArgumentExactlyByTable :
    seeded0.seeded = true ∧ (Instr.nextMax (-2)).WellFormed ∧ argumentError (.nextMax (-2)) = some 3 ∧
    (Instr.nextMax (-1)).WellFormed ∧ argumentError (.nextMax (-1)) = none := by decide

theorem witness_CommandsDependOnTheEngineAlone :
    seeded0.engine = ({ seeded0 with pending := [⟨1, 2⟩], inputs := [.grant 1] } : State).engine := rfl

theorem witness_StepKeepsResponsesWellFormed :
    ResponsesWellFormed .unsignedDiv (seeded0.withFetchWord 72 0x0000000718) ∧
    ∃ t, stepWith .unsignedDiv (seeded0.withFetchWord 72 0x0000000718) = .next t ∧ t.delivered ≠ [] := by
  refine ⟨⟨rfl, by simp [State.withFetchWord, seeded0, seededWith]⟩, ⟨_, rfl, by decide⟩⟩

/-- The invariant refuses a success whose DATA is 7 with one full beat (R74: 1 element of FILL_INT, or 4 bytes of FILL_BYTES). -/
theorem test_response_length_must_fit (v : SampleVariant) : ¬ Response.WellFormed v ⟨⟨.ok, 7⟩, [⟨0xF, 0⟩]⟩ := by
  rintro ⟨-, -, ⟨h, -⟩ | ⟨-, h, -⟩ | ⟨-, h⟩⟩
  · exact absurd h (by decide)
  · exact absurd h (by decide)
  · exact absurd h (by decide)

theorem witness_IgnoredFieldsDoNotMatter :
    (0xFFFFFFFF0000003901 : CmdWord).extractLsb' 0 40 = (0x000000000000003901 : CmdWord).extractLsb' 0 40 ∧
    (0xFFFFFFFF0000003901 : CmdWord).extractLsb' 0 4 ≠ 0x6 ∧
    (0x123456789ABCDEF004 : CmdWord).extractLsb' 0 8 = (0x000000000000000004 : CmdWord).extractLsb' 0 8 ∧
    (0x123456789ABCDEF004 : CmdWord).extractLsb' 0 4 = 0x4 := by decide

theorem witness_DecodingFollowsMatchAndMask : (⟨.fillBytes, 0x08, 0xEF⟩ : OpcodeRow) ∈ opcodeTable := by decide

theorem witness_DecodeOfEncodeIsTheCommand :
    (Instr.nextRange (-2 ^ 31) (2 ^ 31 - 1)).WellFormed ∧ (Instr.fillBytes false (2 ^ 32 - 1)).WellFormed := by decide

theorem witness_EncodeOfDecodeKeepsOperandBits : decode 0xFFFFFFFF0000000718 = .ok (.fillBytes true 7) := by decide

/-- Requester 1's NEXT_RAW is taken from behind requester 0's SEED 0. -/
theorem witness_StepRunsTheDecodedCommand :
    ({ twoRequesters with inputs := [.grant 1] } : State).inputs = .grant 1 :: [] ∧
    twoRequesters.pending = [⟨0, 0x000000000000000001⟩] ++ ⟨1, 0x000000000000000002⟩ :: [] ∧
    (∀ p ∈ [(⟨0, 0x000000000000000001⟩ : Request)], p.requester ≠ 1) ∧ decode 0x000000000000000002 = .ok .nextRaw ∧
    ∃ t q, exec .nextRaw { twoRequesters with inputs := [], pending := [⟨0, 0x000000000000000001⟩] ++ [] } = .next t ∧
      t.response = some q :=
  ⟨rfl, rfl, by decide, by decide, ⟨_, _, rfl, rfl⟩⟩

/-- One word for each clause: both causes, and a fill's BUF = 1. -/
theorem witness_IllegalCommandExactlyByTable :
    9 ≤ ((0x0000000000000000E9 : CmdWord).extractLsb' 0 4).toNat ∧
    (((0x000000000000000016 : CmdWord).extractLsb' 0 4).toNat ≤ 8 ∧ (0x000000000000000016 : CmdWord).getLsbD 4 = true ∧
      ¬ ((0x000000000000000016 : CmdWord).extractLsb' 0 4 = 0x7 ∨ (0x000000000000000016 : CmdWord).extractLsb' 0 4 = 0x8)) ∧
    (0x000000000000000718 : CmdWord).extractLsb' 5 3 = 0 ∧ (0x000000000000000718 : CmdWord).getLsbD 4 = true ∧
    (0x000000000000000718 : CmdWord).extractLsb' 0 4 = 0x8 := by decide

theorem witness_IllegalWordsAreReported :
    decode 0x0000000000000000E9 = .error .reservedOpcode ∧ decode 0x000000000000000037 = .error .reservedFlags ∧
    ({ seeded0 with pending := [⟨3, 0xE9⟩], inputs := [.grant 3] } : State).pending = [] ++ ⟨3, 0xE9⟩ :: [] :=
  ⟨by decide, by decide, rfl⟩

theorem witness_FetchWordRunsNext : decodeTableWord 72 0x0000003903 = some .next ∧
    ∃ t q, exec .next State.reset = .next t ∧ t.response = some q := ⟨by decide, ⟨_, _, rfl, rfl⟩⟩

/-- The order that lets requester 1 go first keeps both requesters' streams. -/
theorem witness_EveryInterleavingIsAdmitted :
    twoRequesters.response = none ∧
    ∀ r, streamOf r [⟨1, 0x000000000000000002⟩, ⟨0, 0x000000000000000001⟩] = streamOf r twoRequesters.pending := by
  refine ⟨rfl, fun r => ?_⟩
  simp only [streamOf, twoRequesters, List.filter_cons, List.filter_nil]
  rcases r with _ | _ | r <;> simp

theorem witness_EveryRunIsASerialOrder :
    (∀ e ∈ ([.grant 1, .present 1 0x03, .grant 0] : List Input).take 2, e ≠ .reset) ∧
    ∃ t, runWith .unsignedDiv 2 { twoRequesters with inputs := [.grant 1, .present 1 0x03, .grant 0] } = .next t :=
  ⟨by decide, ⟨_, rfl⟩⟩

/-- A block not seeded and a seeded one, both given SEED 5 and then NEXT by requester 0. -/
theorem witness_EqualSeedsGiveEqualRuns :
    let more : List Request := [⟨0, encode (.seed 5)⟩, ⟨0, encode .next⟩]
    (∃ t, runWith .signedMul 2 { State.reset with pending := more, inputs := [.grant 0, .grant 0] } = .next t) ∧
    ∃ t, runWith .signedMul 2 { seeded0 with pending := more, inputs := [.grant 0, .grant 0] } = .next t :=
  ⟨⟨_, rfl⟩, ⟨_, rfl⟩⟩

end Sys2Proof.Tests
end

/-! ### Proofs of the statements about the state (10_state.md R31, R32) -/

namespace Sys2Proof.Machine

/-! #### SEED and ADVANCE never reach the all-zero state -/

/-- s1 is the seeding transform of s0, and the transform takes 0 to 1: s0 and s1 are not both 0 (R106). -/
theorem seedWords_ne_zero (x : Word) : seedWords x ≠ Words.zero := by
  intro h
  have h0 : seedTransform x = 0 := congrArg Words.s0 h
  have h1 : seedTransform (seedTransform x) = 0 := congrArg Words.s1 h
  rw [h0] at h1
  exact absurd h1 (by decide)

/-- A right xorshift takes no word but 0 to 0: a word equal to itself shifted right is 0. -/
theorem eq_zero_of_xor_shiftRight {n k : Nat} {x : BitVec n} (hk : 0 < k) (h : x ^^^ (x >>> k) = 0) : x = 0 := by
  have hnat : x.toNat = x.toNat / 2 ^ k := by
    rw [← Nat.shiftRight_eq_div_pow, ← BitVec.toNat_ushiftRight, ← BitVec.xor_eq_zero_iff.mp h]
  by_contra hx
  have hpos : 0 < x.toNat := Nat.pos_of_ne_zero fun h0 => hx (BitVec.eq_of_toNat_eq (by simpa using h0))
  have hlt : x.toNat / 2 ^ k < x.toNat := Nat.div_lt_self hpos (Nat.one_lt_two_pow hk.ne')
  omega

/-- A left xorshift takes no word but 0 to 0: each bit of a word equal to itself shifted left is one `k` places below. -/
theorem eq_zero_of_xor_shiftLeft {n k : Nat} {x : BitVec n} (hk : 0 < k) (h : x ^^^ (x <<< k) = 0) : x = 0 := by
  have hbit (i : Nat) : x.getLsbD i = false := by
    induction i using Nat.strong_induction_on with
    | h i ih =>
      rw [BitVec.xor_eq_zero_iff.mp h, BitVec.getLsbD_shiftLeft]
      by_cases hik : i < k
      · simp [hik]
      · simp [ih (i - k) (by omega)]
  exact BitVec.eq_of_getLsbD_eq fun i _ => by simp [hbit]

/-- ADVANCE keeps s1, s2 and s3; where they are 0, the raw draw is two xorshifts of s0 (R107). -/
theorem advance_ne_zero {w : Words} (hw : w ≠ Words.zero) : advance w ≠ Words.zero := by
  obtain ⟨s0, s1, s2, s3⟩ := w
  intro h
  obtain ⟨rfl, rfl, rfl, hraw⟩ : s1 = 0 ∧ s2 = 0 ∧ s3 = 0 ∧ rawDraw ⟨s0, s1, s2, s3⟩ = 0 := by
    simpa [advance, Words.zero] using h
  have hright : (s0 ^^^ (s0 <<< 11)) ^^^ ((s0 ^^^ (s0 <<< 11)) >>> 8) = 0 := by simpa [rawDraw] using hraw
  have hleft : s0 ^^^ (s0 <<< 11) = 0 := eq_zero_of_xor_shiftRight (by decide) hright
  obtain rfl : s0 = 0 := eq_zero_of_xor_shiftLeft (by decide) hleft
  exact hw rfl

theorem advanceN_ne_zero (n : Nat) {w : Words} (hw : w ≠ Words.zero) : advanceN n w ≠ Words.zero := by
  induction n generalizing w with
  | zero => exact hw
  | succ n ih => exact ih (advance_ne_zero hw)

/-! #### The invariant of R31, from one command to a step -/

/-- The invariant of a seeded block, from the words it holds. -/
theorem engineNotAllZero_of_some {s : State} {w : Words} (h : s.engine = some w) (hw : w ≠ Words.zero) :
    EngineNotAllZero s := by
  intro w' hw'
  obtain rfl : w = w' := Option.some.inj (h.symm.trans hw')
  exact hw

/-- The invariant reads the state words alone. -/
theorem EngineNotAllZero.of_engine_eq {s t : State} (hs : EngineNotAllZero s) (h : t.engine = s.engine) :
    EngineNotAllZero t := fun w hw => hs w (h.symm.trans hw)

theorem execWith_keeps_engineNotAllZero {v : SampleVariant} {i : Instr} {s t : State} (hs : EngineNotAllZero s)
    (h : execWith v i s = .next t) : EngineNotAllZero t := by
  rcases execWith_cases v i s with ⟨x, -, he⟩ | ⟨-, -, he⟩ | ⟨-, w, d, -, -, he⟩ | ⟨-, w, hw, -, he⟩ <;>
    obtain rfl := Host.Outcome.next.inj (he.symm.trans h)
  · exact engineNotAllZero_of_some rfl (seedWords_ne_zero x)
  · exact hs.of_engine_eq rfl
  · exact hs.of_engine_eq rfl
  · exact engineNotAllZero_of_some rfl (advanceN_ne_zero (drawUnits i) (hs w hw))

theorem runWord_keeps_engineNotAllZero {v : SampleVariant} {w : CmdWord} {s t : State} (hs : EngineNotAllZero s)
    (h : runWord v w s = .next t) : EngineNotAllZero t := by
  cases hd : decode w with
  | ok i => exact execWith_keeps_engineNotAllZero hs ((runWord_ok v hd s).symm.trans h)
  | error e =>
    obtain rfl := Host.Outcome.next.inj ((runWord_error v hd s).symm.trans h)
    exact hs.of_engine_eq rfl

/-- Settles O12, by the cases of a step: only a granted command and a reset write the state words. -/
theorem stepKeepsEngineNotAllZero : Obligations.StepKeepsEngineNotAllZero := by
  intro v s t hs h
  rcases stepWith_cases v s with ⟨-, he⟩ | ⟨r, w, rest, -, he⟩ | ⟨r, rest, -, -, he⟩ |
      ⟨r, rest, w, qs, q, -, -, -, he⟩ | ⟨rest, -, he⟩ <;>
    obtain rfl := Host.Outcome.next.inj (he.symm.trans h)
  · exact hs
  · exact hs.of_engine_eq rfl
  · exact hs.of_engine_eq rfl
  · obtain ⟨_, hrun, -⟩ := runWord_next v w s
    exact (runWord_keeps_engineNotAllZero hs hrun).of_engine_eq rfl
  · exact fun w hw => nomatch hw

/-! #### A command depends on the state words alone (R32) -/

/-- Settles O39: in both states the words and the response are those of `commandEffect` at the engine they share. -/
theorem commandsDependOnTheEngineAlone : Obligations.CommandsDependOnTheEngineAlone := by
  intro v w s s' heng
  obtain ⟨r, hrun, hr⟩ := runWord_next v w s
  obtain ⟨r', hrun', hr'⟩ := runWord_next v w s'
  rw [← heng] at hrun' hr'
  obtain rfl : r = r' := Option.some.inj (hr.symm.trans hr')
  exact ⟨_, r, hrun, hrun'⟩

end Sys2Proof.Machine

/-! ### Proofs of the statement about the byte buffer (20_memory.md R44) -/

namespace Sys2Proof.Machine

/-! #### The bytes of one beat -/

/-- `byteEnables k` enables the lowest `k` lanes. -/
theorem enabledLanes_byteEnables {k : Nat} (hk : k ≤ 4) :
    ((List.range 4).filter fun i => (byteEnables k).getLsbD i) = List.range k := by
  decide +revert

/-- A byte below `k` lies inside `MASK(k)`, so masking keeps it. -/
theorem extractByte_and_byteMask (raw : Word) {i k : Nat} (hk : k ≤ 4) (hik : i < k) :
    (raw &&& byteMask k).extractLsb' (8 * i) 8 = raw.extractLsb' (8 * i) 8 := by
  refine BitVec.eq_of_getLsbD_eq fun b hb => ?_
  have hword : 8 * i + b < 32 := by omega
  have hmask : 8 * i + b < 8 * k := by omega
  simp [byteMask, BitVec.getLsbD_ofNat, Nat.testBit_two_pow_sub_one, hb, hword, hmask]

theorem groupBytes_le (n j : Nat) : groupBytes n j ≤ 4 := by
  unfold groupBytes
  split <;> omega

/-- The beat of group `j` carries the low bytes of its raw draw, least significant byte first (R44, R162). -/
theorem bytes_byteBeat (n j : Nat) (raw : Word) :
    (byteBeat n j raw).bytes = (List.range (groupBytes n j)).map fun k => raw.extractLsb' (8 * k) 8 := by
  have hk := groupBytes_le n j
  unfold Beat.bytes byteBeat
  rw [enabledLanes_byteEnables hk]
  exact List.map_congr_left fun i hi => extractByte_and_byteMask raw hk (List.mem_range.mp hi)

/-! #### The groups in order are the buffer -/

/-- A group holds what is left of the `n` bytes after the groups before it, up to 4 (R162). -/
theorem groupBytes_eq_min {n j : Nat} (hj : j < byteGroups n) : groupBytes n j = min 4 (n - 4 * j) := by
  unfold byteGroups at hj
  unfold groupBytes byteGroups
  split <;> omega

/-- The byte numbers of the first `g` groups, one group after the other, count up from 0 and stop at `n`. -/
theorem flatMap_groups_eq_range (n g : Nat) :
    ((List.range g).flatMap fun j => (List.range (min 4 (n - 4 * j))).map (4 * j + ·)) = List.range (min n (4 * g)) := by
  induction g with
  | zero => simp
  | succ g ih =>
    rw [List.range_succ, List.flatMap_append, ih, List.flatMap_singleton]
    by_cases hfull : 4 * g ≤ n
    · have hsum : min n (4 * (g + 1)) = 4 * g + min 4 (n - 4 * g) := by omega
      rw [hsum, List.range_add, Nat.min_eq_right hfull]
    · have hnone : min 4 (n - 4 * g) = 0 := by omega
      have hsame : min n (4 * (g + 1)) = min n (4 * g) := by omega
      simp [hnone, hsame]

/-- Byte `i` of the buffer: byte `i mod 4` of raw draw `i / 4` (R44). -/
def bufferByte (w : Words) (i : Nat) : BitVec 8 := (rawDraw (advanceN (i / 4) w)).extractLsb' (8 * (i % 4)) 8

/-- The bytes a group's beat carries are the buffer's bytes from `4 * j` on. -/
theorem bytes_byteBeat_rawDraw (w : Words) {n j : Nat} (hj : j < byteGroups n) :
    (byteBeat n j (rawDraw (advanceN j w))).bytes =
      ((List.range (min 4 (n - 4 * j))).map (4 * j + ·)).map (bufferByte w) := by
  rw [bytes_byteBeat, groupBytes_eq_min hj, List.map_map]
  refine List.map_congr_left fun k hk => ?_
  have hlt : k < 4 := by
    rw [List.mem_range] at hk
    omega
  have hdiv : (4 * j + k) / 4 = j := by omega
  have hmod : (4 * j + k) % 4 = k := by omega
  simp [bufferByte, hdiv, hmod]

/-- The beats of FILL_BYTES, group by group. -/
theorem byteBeats_rawDraws (n g : Nat) (w : Words) :
    byteBeats n (rawDraws g w) = (List.range g).map fun j => byteBeat n j (rawDraw (advanceN j w)) := by
  rw [rawDraws_eq_map]
  exact List.ext_getElem (by simp [byteBeats]) fun j _ _ => by simp [byteBeats]

/-- The enabled bytes of FILL_BYTES' beats, in order, are the `n` bytes of the buffer (R44). -/
theorem flatMap_bytes_byteBeats (n : Nat) (w : Words) :
    (byteBeats n (rawDraws (byteGroups n) w)).flatMap Beat.bytes = (List.range n).map (bufferByte w) := by
  have hlen : min n (4 * byteGroups n) = n := by
    unfold byteGroups
    omega
  calc (byteBeats n (rawDraws (byteGroups n) w)).flatMap Beat.bytes
    _ = (List.range (byteGroups n)).flatMap fun j => (byteBeat n j (rawDraw (advanceN j w))).bytes := by
      rw [byteBeats_rawDraws, List.flatMap_map]
    _ = (List.range (byteGroups n)).flatMap fun j =>
        ((List.range (min 4 (n - 4 * j))).map (4 * j + ·)).map (bufferByte w) :=
      List.flatMap_congr fun j hj => bytes_byteBeat_rawDraw w (List.mem_range.mp hj)
    _ = (List.range n).map (bufferByte w) := by
      rw [← List.map_flatMap, flatMap_groups_eq_range, hlen]

/-- FILL_BYTES with a buffer on a seeded block answers with the beats of its raw draws. -/
theorem exec_fillBytes_beats (n : Nat) {s : State} {w : Words} (hw : s.engine = some w) :
    ∃ t r, exec (.fillBytes true n) s = .next t ∧ t.response = some r ∧
      r.beats = byteBeats n (rawDraws (byteGroups n) w) :=
  ⟨_, _, (execWith_config _ s).symm.trans (execWith_valid Config.sampleVariant rfl hw rfl), rfl, rfl⟩

/-- Settles O30: the bytes of the beats are `bufferByte` at 0, ..., n - 1. -/
theorem fillBytesIsLittleEndian : Obligations.FillBytesIsLittleEndian := by
  intro n s w _ hw
  obtain ⟨t, r, hexec, hresp, hbeats⟩ := exec_fillBytes_beats n hw
  have hbytes : r.beats.flatMap Beat.bytes = (List.range n).map (bufferByte w) := by
    rw [hbeats, flatMap_bytes_byteBeats]
  refine ⟨t, r, hexec, hresp, by simp [hbytes], fun i hi => ?_⟩
  simp [hbytes, hi, bufferByte]

end Sys2Proof.Machine

/-! ### Proofs of the statements about decoding (30_encoding.md R63, R65, R66) -/

namespace Sys2Proof

/-! #### The opcode map and its codes (R64) -/

theorem opcodeOf_eq_none_iff (c : BitVec 4) : opcodeOf c = none ↔ c = 0 ∨ 9 ≤ c.toNat := by decide +revert

theorem opcodeOf_eq_some_iff {c : BitVec 4} {o : Opcode} : opcodeOf c = some o ↔ c = o.code :=
  ⟨fun h => (code_of_opcodeOf h).symm, fun h => h ▸ opcodeOf_code o⟩

theorem code_injective : Function.Injective Opcode.code := fun a b h => by
  simpa using congrArg opcodeOf h

theorem code_bounds (o : Opcode) : 1 ≤ o.code.toNat ∧ o.code.toNat ≤ 8 := by cases o <;> decide

theorem isFill_iff_code (o : Opcode) : o.isFill = true ↔ o.code = 0x7 ∨ o.code = 0x8 := by cases o <;> decide

/-! #### The outcomes of decoding (R66) -/

theorem decode_of_opcodeOf_none {w : CmdWord} (h : opcodeOf (cmdOp w) = none) : decode w = .error .reservedOpcode := by
  simp [decode, h]

theorem decode_of_reservedFlags {w : CmdWord} {o : Opcode} (h : opcodeOf (cmdOp w) = some o)
    (hflags : cmdRsv w ≠ 0 ∨ cmdBuf w = true ∧ o.isFill = false) : decode w = .error .reservedFlags := by
  simp only [decode, h, if_pos hflags]

theorem decode_of_flags {w : CmdWord} {o : Opcode} (h : opcodeOf (cmdOp w) = some o)
    (hflags : ¬ (cmdRsv w ≠ 0 ∨ cmdBuf w = true ∧ o.isFill = false)) :
    decode w = .ok (o.toInstr (cmdBuf w) (cmdArg0 w) (cmdArg1 w)) := by
  simp only [decode, h, if_neg hflags]

/-- Settles O43: a reserved OP has the first outcome; for a defined one the flags choose between the other two. -/
theorem decodingIsTotalInOrder : Obligations.DecodingIsTotalInOrder := by
  intro w
  change (_ ↔ cmdOp w = 0 ∨ 9 ≤ (cmdOp w).toNat) ∧
    (_ ↔ (1 ≤ (cmdOp w).toNat ∧ (cmdOp w).toNat ≤ 8) ∧
      (cmdRsv w ≠ 0 ∨ cmdBuf w = true ∧ ¬ (cmdOp w = 0x7 ∨ cmdOp w = 0x8))) ∧
    (_ ↔ (1 ≤ (cmdOp w).toNat ∧ (cmdOp w).toNat ≤ 8) ∧ cmdRsv w = 0 ∧
      (cmdBuf w = true → cmdOp w = 0x7 ∨ cmdOp w = 0x8))
  cases hop : opcodeOf (cmdOp w) with
  | none =>
    have hdec := decode_of_opcodeOf_none hop
    have hreserved := (opcodeOf_eq_none_iff _).mp hop
    have hrange : ¬ (1 ≤ (cmdOp w).toNat ∧ (cmdOp w).toNat ≤ 8) := by
      rcases hreserved with h | h
      · simp [h]
      · omega
    exact ⟨iff_of_true hdec hreserved, iff_of_false (by simp [hdec]) fun h => hrange h.1,
      iff_of_false (by simp [hdec]) fun h => hrange h.1⟩
  | some o =>
    have hcode := opcodeOf_eq_some_iff.mp hop
    have hdefined : ¬ (cmdOp w = 0 ∨ 9 ≤ (cmdOp w).toNat) := fun h => by simp [(opcodeOf_eq_none_iff _).mpr h] at hop
    have hrange : 1 ≤ (cmdOp w).toNat ∧ (cmdOp w).toNat ≤ 8 := hcode ▸ code_bounds o
    have hfill : cmdOp w = 0x7 ∨ cmdOp w = 0x8 ↔ o.isFill = true := hcode ▸ (isFill_iff_code o).symm
    have hgood : cmdRsv w = 0 ∧ (cmdBuf w = true → o.isFill = true) ↔
        ¬ (cmdRsv w ≠ 0 ∨ cmdBuf w = true ∧ o.isFill = false) := by simp
    rw [hfill, hgood, Bool.not_eq_true]
    by_cases hflags : cmdRsv w ≠ 0 ∨ cmdBuf w = true ∧ o.isFill = false
    · have hdec := decode_of_reservedFlags hop hflags
      exact ⟨iff_of_false (by simp [hdec]) hdefined, iff_of_true hdec ⟨hrange, hflags⟩,
        iff_of_false (by simp [hdec]) fun h => h.2 hflags⟩
    · have hdec := decode_of_flags hop hflags
      exact ⟨iff_of_false (by simp [hdec]) hdefined, iff_of_false (by simp [hdec]) fun h => hflags h.2,
        iff_of_true ⟨_, hdec⟩ ⟨hrange, hflags⟩⟩

/-! #### A command by its control bits (R65) -/

/-- The control bits of `w` are those of `o`: its OP, RSV = 000, and BUF = 0 unless BUF is an operand (R65, R66). -/
def HasControlBits (w : CmdWord) (o : Opcode) : Prop :=
  cmdRsv w = 0 ∧ (cmdBuf w && !o.isFill) = false ∧ cmdOp w = o.code

theorem decode_eq_ok_iff {w : CmdWord} {i : Instr} :
    decode w = .ok i ↔ HasControlBits w i.opcode ∧ i.opcode.toInstr (cmdBuf w) (cmdArg0 w) (cmdArg1 w) = i := by
  constructor
  · intro h
    obtain ⟨o, hop, hrsv, hbuf, rfl⟩ := decode_ok h
    rw [toInstr_opcode]
    exact ⟨⟨hrsv, by simpa using hbuf, opcodeOf_eq_some_iff.mp hop⟩, rfl⟩
  · rintro ⟨⟨hrsv, hbuf, hop⟩, hi⟩
    have hflags : ¬ (cmdRsv w ≠ 0 ∨ cmdBuf w = true ∧ i.opcode.isFill = false) := by simpa [hrsv] using hbuf
    rw [decode_of_flags (opcodeOf_eq_some_iff.mpr hop) hflags, hi]

theorem exists_decode_eq_ok_iff {w : CmdWord} {o : Opcode} :
    (∃ i, decode w = .ok i ∧ i.opcode = o) ↔ HasControlBits w o := by
  constructor
  · rintro ⟨i, h, rfl⟩
    exact (decode_eq_ok_iff.mp h).1
  · intro h
    exact ⟨o.toInstr (cmdBuf w) (cmdArg0 w) (cmdArg1 w), decode_eq_ok_iff.mpr (by simpa using h), by simp⟩

/-! #### The control bits by match and mask (R65) -/

/-- The three control fields of a low byte can be read off it (R60). -/
theorem controlBits_inj {r r' : BitVec 3} {b b' : Bool} {c c' : BitVec 4} :
    r ++ BitVec.ofBool b ++ c = r' ++ BitVec.ofBool b' ++ c' ↔ r = r' ∧ b = b' ∧ c = c' := by
  simpa [lowByte_eq] using lowByte_iff (cmdWord 0 0 r b c) r' b' c'

/-- A mask that is all ones outside bit 4 keeps RSV and OP, and BUF where bit 4 is set. -/
theorem lowByte_and_mask (w : CmdWord) (b : Bool) :
    w.extractLsb' 0 8 &&& (BitVec.allOnes 3 ++ BitVec.ofBool b ++ BitVec.allOnes 4) =
      cmdRsv w ++ BitVec.ofBool (cmdBuf w && b) ++ cmdOp w := by
  rw [lowByte_eq, BitVec.and_append, BitVec.and_append, BitVec.and_allOnes, BitVec.and_allOnes, BitVec.ofBool_and_ofBool]

/-- The control bits of an opcode, as one masked comparison of the low byte. -/
theorem hasControlBits_iff_masked (w : CmdWord) (o : Opcode) :
    HasControlBits w o ↔
      w.extractLsb' 0 8 &&& (BitVec.allOnes 3 ++ BitVec.ofBool (!o.isFill) ++ BitVec.allOnes 4) = 0#4 ++ o.code := by
  rw [lowByte_and_mask]
  exact controlBits_inj.symm

/-- A row's pattern is its opcode's code, and its mask leaves out BUF where BUF is an operand (R65). -/
theorem row_of_mem {row : OpcodeRow} (h : row ∈ opcodeTable) :
    row.pattern = 0#4 ++ row.opcode.code ∧
    row.mask = BitVec.allOnes 3 ++ BitVec.ofBool (!row.opcode.isFill) ++ BitVec.allOnes 4 := by
  revert row; decide

/-- A word matches a row exactly when it has the control bits of the row's opcode (R65). -/
theorem matches_iff {row : OpcodeRow} (h : row ∈ opcodeTable) (w : CmdWord) :
    row.matches w = true ↔ HasControlBits w row.opcode := by
  obtain ⟨hpattern, hmask⟩ := row_of_mem h
  rw [OpcodeRow.matches, decide_eq_true_iff, hpattern, hmask, hasControlBits_iff_masked]

/-- Two rows that a word matched would have one OP, and the rows' opcodes differ. -/
theorem pairwise_not_matches_both :
    opcodeTable.Pairwise fun a b => ∀ w : CmdWord, ¬ (a.matches w = true ∧ b.matches w = true) := by
  have hdistinct : opcodeTable.Pairwise fun a b => a.opcode ≠ b.opcode := by decide
  refine hdistinct.imp_of_mem fun ha hb hne w ⟨hma, hmb⟩ => hne ?_
  obtain ⟨-, -, hopa⟩ := (matches_iff ha w).mp hma
  obtain ⟨-, -, hopb⟩ := (matches_iff hb w).mp hmb
  exact code_injective (hopa.symm.trans hopb)

/-- A command that is no fill fixes its whole low byte (R65). -/
theorem hasControlBits_iff_of_not_fill (w : CmdWord) {o : Opcode} (h : o.isFill = false) :
    HasControlBits w o ↔ w.extractLsb' 0 8 = 0#4 ++ o.code := by
  rw [hasControlBits_iff_masked, h]
  exact Eq.congr_left BitVec.and_allOnes

/-- Settles O44: each clause is about the control bits of one opcode. -/
theorem decodingFollowsMatchAndMask : Obligations.DecodingFollowsMatchAndMask := by
  refine ⟨fun w => ?_, fun row w h => (matches_iff h w).trans exists_decode_eq_ok_iff.symm, pairwise_not_matches_both⟩
  simp only [decode_eq_ok_iff, Instr.opcode, Opcode.toInstr, cmdBuf, Instr.seed.injEq, Instr.nextMax.injEq,
    Instr.nextRange.injEq, Instr.fillInt.injEq, Instr.fillBytes.injEq, true_and, and_true, exists_and_left, exists_eq']
  exact ⟨hasControlBits_iff_of_not_fill w rfl, hasControlBits_iff_of_not_fill w rfl, hasControlBits_iff_of_not_fill w rfl,
    hasControlBits_iff_of_not_fill w rfl, hasControlBits_iff_of_not_fill w rfl, hasControlBits_iff_of_not_fill w rfl,
    hasControlBits_iff_masked w .fillInt, hasControlBits_iff_masked w .fillBytes⟩

/-! #### The ignored fields (R63) -/

/-- Decoding reads the control fields, and of the argument fields what the opcode takes as operands. -/
theorem decode_congr {w w' : CmdWord} (hlow : w.extractLsb' 0 8 = w'.extractLsb' 0 8)
    (hargs : ∀ (o : Opcode) (b : Bool), cmdOp w = o.code →
      o.toInstr b (cmdArg0 w) (cmdArg1 w) = o.toInstr b (cmdArg0 w') (cmdArg1 w')) :
    decode w = decode w' := by
  obtain ⟨hrsv, hbuf, hop⟩ := (lowByte_iff w _ _ _).mp (hlow.trans (lowByte_eq w'))
  unfold decode
  rw [hrsv, hbuf, ← hop]
  cases ho : opcodeOf (cmdOp w) with
  | none => rfl
  | some o => simp only [hargs o _ (opcodeOf_eq_some_iff.mp ho)]

/-- A command other than NEXT_RANGE takes no operand from ARG1 (R62, R63). -/
theorem toInstr_arg1_ignored {o : Opcode} (h : o ≠ .nextRange) (b : Bool) (a0 a1 a1' : Word) :
    o.toInstr b a0 a1 = o.toInstr b a0 a1' := by
  cases o with
  | nextRange => exact absurd rfl h
  | seed | nextRaw | next | sample | nextMax | fillInt | fillBytes => rfl

/-- Settles O45: ARG1 stands outside bits 39:0, and both arguments stand outside bits 7:0. -/
theorem ignoredFieldsDoNotMatter : Obligations.IgnoredFieldsDoNotMatter := by
  refine ⟨fun w w' h hop => ?_, fun w w' h hop => ?_⟩
  · have hlow : w.extractLsb' 0 8 = w'.extractLsb' 0 8 := by
      simpa using congrArg (·.extractLsb' 0 8) h
    have harg0 : cmdArg0 w = cmdArg0 w' := by
      simpa [cmdArg0] using congrArg (·.extractLsb' 8 32) h
    refine decode_congr hlow fun o b hcode => ?_
    have hne : o ≠ .nextRange := by
      rintro rfl
      exact hop hcode
    rw [harg0]
    exact toInstr_arg1_ignored hne b _ _ _
  · refine decode_congr h fun o b hcode => ?_
    have hdraw : o.code = 0x2 ∨ o.code = 0x3 ∨ o.code = 0x4 := hcode ▸ hop
    cases o with
    | nextRaw | next | sample => rfl
    | seed | nextMax | nextRange | fillInt | fillBytes => exact absurd hdraw (by decide)

end Sys2Proof

/-! ### Proofs of the statement about the response header (30_encoding.md R70, R71) -/

namespace Sys2Proof.Machine

@[simp] theorem Status.ofCode_code (st : Status) : Status.ofCode st.code = st := by cases st <;> rfl

/-- The four codes are all the values of the STATUS field (R71). -/
@[simp] theorem Status.code_ofCode (c : BitVec 2) : (Status.ofCode c).code = c := by decide +revert

theorem Header.status_toWord (h : Header) : h.toWord.extractLsb' 64 2 = h.status.code := BitVec.extractLsb'_append_eq_left

theorem Header.data_toWord (h : Header) : h.toWord.extractLsb' 0 64 = h.data := BitVec.extractLsb'_append_eq_right

theorem Header.ofWord_toWord (h : Header) : Header.ofWord h.toWord = h := by
  simp [Header.ofWord, h.status_toWord, h.data_toWord]

theorem Header.toWord_ofWord (w : BitVec 66) : (Header.ofWord w).toWord = w := by
  simp only [Header.toWord, Header.ofWord, Status.code_ofCode]
  exact BitVec.extractLsb'_append_extractLsb' (len := 64) (w := 2)

/-- Settles O48: a header's word is its two fields end to end, and a word is cut into the same two. -/
theorem headerBitsCarryStatusAndData : Obligations.HeaderBitsCarryStatusAndData :=
  ⟨fun st d => ⟨Header.status_toWord ⟨st, d⟩, Header.data_toWord ⟨st, d⟩⟩, ⟨rfl, rfl, rfl, rfl⟩, Header.ofWord_toWord,
    Header.toWord_ofWord⟩

end Sys2Proof.Machine

/-! ### Proofs of the statements about the engine (40_engine.md) -/

namespace Sys2Proof.Machine

/-! #### The seeding transform (R100, R106) -/

/-- Settles O5: wrap-around arithmetic is arithmetic modulo 2^32, and a right shift is a quotient. -/
theorem seedTransformArithmetic : Obligations.SeedTransformArithmetic := by
  intro v
  simp [seedTransform, BitVec.toNat_add, BitVec.toNat_mul, Nat.shiftRight_eq_div_pow]

/-- A right xorshift by at least half the width undoes itself: the word shifted twice is 0. -/
theorem xor_shiftRight_involutive {n k : Nat} (hk : n ≤ k + k) :
    Function.Involutive fun x : BitVec n => x ^^^ (x >>> k) := by
  intro x
  have hgone : x >>> k >>> k = 0#n := by
    rw [← BitVec.shiftRight_add]
    exact BitVec.ushiftRight_eq_zero hk
  simp [BitVec.ushiftRight_xor_distrib, hgone]

/-- 0x9638806D is the inverse of the multiplier, and the xorshift by 30 undoes itself (R106). -/
theorem seedTransform_rightInverse :
    Function.RightInverse (fun w : Word => (w - 1) * 0x9638806D ^^^ (((w - 1) * 0x9638806D) >>> 30)) seedTransform := by
  intro w
  have hxor := xor_shiftRight_involutive (n := 32) (k := 30) (by decide) ((w - 1) * 0x9638806D)
  have hmul : 1812433253#32 * ((w - 1) * 0x9638806D) = w - 1 := by
    rw [mul_left_comm, show 1812433253#32 * 0x9638806D = 1 by decide, mul_one]
  calc seedTransform _
    _ = 1812433253#32 * ((w - 1) * 0x9638806D) + 1 := congrArg (1812433253#32 * · + 1) hxor
    _ = w := by rw [hmul, sub_add_cancel]

/-- A transform of a finite type with a right inverse is a bijection. -/
theorem seedTransform_bijective : Function.Bijective seedTransform :=
  seedTransform_rightInverse.surjective.bijective_of_finite

/-- Settles O8: s0 is the transform of the seed, so distinct seeds give distinct s0. -/
theorem seedTransformIsBijective : Obligations.SeedTransformIsBijective :=
  ⟨seedTransform_bijective, seedTransform_rightInverse, seedWords_ne_zero,
    fun _ _ hne => seedTransform_bijective.injective.ne hne⟩

/-! #### SEED (R101, R109) -/

/-- SEED in every state, on this hardware (R101). -/
theorem exec_seed (x : Word) (s : State) :
    exec (.seed x) s = .next { s with engine := some (seedWords x), response := some ⟨⟨.ok, 0⟩, []⟩ } := rfl

/-- A word whose low byte is 0x01 has SEED's control bits, and the seed is its ARG0 (R62, R65). -/
theorem decode_of_seed_lowByte {w : CmdWord} (h : w.extractLsb' 0 8 = 0x01) : decode w = .ok (.seed (cmdArg0 w)) :=
  decode_eq_ok_iff.mpr ⟨(hasControlBits_iff_of_not_fill w (o := .seed) rfl).mpr h, rfl⟩

/-- Settles O6: the encoding, the whole next state, and the corner seeds evaluated. -/
theorem seedWritesAllFourWords : Obligations.SeedWritesAllFourWords :=
  ⟨fun _ h => decode_of_seed_lowByte h, exec_seed, by decide, by decide, by decide, by decide⟩

/-- Settles O10: SEED f(x) starts one transform further on. -/
theorem seedsRelatedByTransformOverlap : Obligations.SeedsRelatedByTransformOverlap :=
  ⟨fun x s => ⟨_, _, _, _, _, _, exec_seed x s, rfl, exec_seed (seedTransform x) s, rfl⟩, by decide⟩

/-! #### ADVANCE (R102, R107) -/

/-- Settles O7: the model computes ADVANCE as the rule writes it; the worked example is evaluated. -/
theorem advanceShiftsInTheRawDraw : Obligations.AdvanceShiftsInTheRawDraw :=
  ⟨fun _ _ _ _ => ⟨rfl, rfl⟩, by decide⟩

/-- A map linear over xor that takes no word but 0 to 0 is injective. -/
theorem injective_of_xor_linear {n : Nat} {f : BitVec n → BitVec n} (hlinear : ∀ x y, f (x ^^^ y) = f x ^^^ f y)
    (hzero : ∀ x, f x = 0 → x = 0) : Function.Injective f := by
  intro x y hxy
  have hdiff : f (x ^^^ y) = 0 := (hlinear x y).trans (BitVec.xor_eq_zero_iff.mpr hxy)
  exact BitVec.xor_eq_zero_iff.mp (hzero _ hdiff)

theorem xor_shiftRight_injective {n k : Nat} (hk : 0 < k) :
    Function.Injective fun x : BitVec n => x ^^^ (x >>> k) :=
  injective_of_xor_linear (fun x y => by simp only [BitVec.ushiftRight_xor_distrib]; ac_rfl)
    fun _ => eq_zero_of_xor_shiftRight hk

theorem xor_shiftLeft_injective {n k : Nat} (hk : 0 < k) :
    Function.Injective fun x : BitVec n => x ^^^ (x <<< k) :=
  injective_of_xor_linear (fun x y => by simp only [BitVec.shiftLeft_xor_distrib]; ac_rfl)
    fun _ => eq_zero_of_xor_shiftLeft hk

/-- ADVANCE keeps s1, s2 and s3, and with s3 known the raw draw gives s0 back through two xorshifts (R107). -/
theorem advance_injective : Function.Injective advance := by
  rintro ⟨a0, a1, a2, a3⟩ ⟨b0, b1, b2, b3⟩ h
  obtain ⟨rfl, rfl, rfl, hraw⟩ : a1 = b1 ∧ a2 = b2 ∧ a3 = b3 ∧ rawDraw ⟨a0, a1, a2, a3⟩ = rawDraw ⟨b0, b1, b2, b3⟩ := by
    simpa [advance] using h
  have hright := (BitVec.xor_right_inj _).mp hraw
  have hleft := xor_shiftRight_injective (by decide) hright
  obtain rfl : a0 = b0 := xor_shiftLeft_injective (by decide) hleft
  rfl

/-- There are finitely many states of the engine: 128 bits (R20). -/
theorem finite_words : Finite Words :=
  Finite.of_injective (fun w => (w.s0, w.s1, w.s2, w.s3)) fun ⟨_, _, _, _⟩ ⟨_, _, _, _⟩ h => by simpa using h

/-- Settles O9: an injective map of a finite type is a bijection. -/
theorem advanceIsBijective : Obligations.AdvanceIsBijective :=
  have := finite_words
  ⟨Finite.injective_iff_bijective.mp advance_injective, by decide, fun _ => advance_ne_zero⟩

/-! #### Draws and the number of ADVANCEs (R103, R104, R165) -/

@[simp] theorem respondedOk_respond (st d bs) (s : State) : respondedOk (respond st d bs s) = decide (st = .ok) := rfl
@[simp] theorem respondedOk_raise (st n) (s : State) : respondedOk (raise st n s) = decide (st = .ok) := rfl

/-- Settles O34: the one cause of an error on a seeded block is the draw's argument. -/
theorem drawsAdvanceOncePerUnit : Obligations.DrawsAdvanceOncePerUnit := by
  intro v i s w hdraw hw
  cases hd : argumentError i with
  | some d => exact ⟨_, execWith_invalid v hw hd, by simp, fun _ => rfl⟩
  | none => exact ⟨_, execWith_valid v hdraw hw hd, fun _ => rfl, by simp⟩

/-- The state words after a draw that succeeds (R103). -/
theorem engine_of_draw_ok {v : SampleVariant} {i : Instr} {s t : State} {w : Words} (hdraw : isDraw i = true)
    (hw : s.engine = some w) (h : execWith v i s = .next t) (hok : respondedOk t = true) :
    t.engine = some (advance^[drawUnits i] w) := by
  obtain ⟨t', h', hadvance, -⟩ := drawsAdvanceOncePerUnit v i s w hdraw hw
  obtain rfl := Host.Outcome.next.inj (h'.symm.trans h)
  rw [hadvance hok, ← advanceN_eq_iterate]

/-- A sequence succeeds when its first command does and the others do from the state it leaves. -/
theorem execAllOk_cons {v : SampleVariant} {i : Instr} {is : List Instr} {s t : State}
    (h : execAllOk v (i :: is) s = some t) :
    ∃ u, execWith v i s = .next u ∧ respondedOk u = true ∧ execAllOk v is u = some t := by
  unfold execAllOk at h
  split at h
  · next u hu =>
    obtain ⟨hok, hrest⟩ := Option.ite_none_right_eq_some.mp h
    exact ⟨u, hu, hok, hrest⟩
  · cases h
  · cases h

/-- Successful draws advance once per unit of all their outputs together (R104). -/
theorem engine_of_execAllOk {v : SampleVariant} {is : List Instr} {s t : State} {w : Words}
    (hdraw : ∀ i ∈ is, isDraw i = true) (hw : s.engine = some w) (h : execAllOk v is s = some t) :
    t.engine = some (advance^[(is.map drawUnits).sum] w) := by
  induction is generalizing s w with
  | nil =>
    obtain rfl : s = t := Option.some.inj h
    exact hw
  | cons i is ih =>
    obtain ⟨u, hu, hok, hrest⟩ := execAllOk_cons h
    obtain ⟨hdi, hdis⟩ := List.forall_mem_cons.mp hdraw
    rw [ih hdis (engine_of_draw_ok hdi hw hu hok) hrest, ← Function.iterate_add_apply, List.map_cons, List.sum_cons,
      Nat.add_comm]

/-- Settles O35: both sequences leave the same iterate of ADVANCE on the words the two states share. -/
theorem drawSequencesArePathIndependent : Obligations.DrawSequencesArePathIndependent := by
  refine ⟨fun v is s t w hdraw hw h => engine_of_execAllOk hdraw hw h, ?_⟩
  intro v v' is is' s s' t t' hdraw hdraw' hsum heng hseeded h h'
  obtain ⟨w, hw⟩ := (seeded_eq_true s).mp hseeded
  rw [engine_of_execAllOk hdraw hw h, engine_of_execAllOk hdraw' (heng ▸ hw) h', hsum]

/-! #### Equal seeds give equal runs (R105) -/

theorem decode_encode_seed (x : Word) : decode (encode (.seed x)) = .ok (.seed x) :=
  decode_cmdWord 0 x 0 false .seed

/-- The step that serves a SEED in front of the pending commands: nothing of the state words or the response held before
is left (R101). -/
theorem stepWith_grant_seed (v : SampleVariant) {s : State} {r : Nat} {x : Word} {qs : List Request} {ins : List Input}
    (hpending : s.pending = ⟨r, encode (.seed x)⟩ :: qs) (hinputs : s.inputs = .grant r :: ins) :
    stepWith v s = .next
      { engine := some (seedWords x), response := none, pending := qs
        delivered := s.delivered ++ [⟨r, ⟨⟨.ok, 0⟩, []⟩⟩], inputs := ins } := by
  simp [stepWith, hinputs, accept, grant, hpending, takeRequest, runWord_ok v (decode_encode_seed x), execWith_seed,
    finishCommand, returnResponse, respond]

/-- A run whose first step is known goes on from the state that step leaves. -/
theorem runWith_succ {v : SampleVariant} {s u : State} (h : stepWith v s = .next u) (k : Nat) :
    runWith v (k + 1) s = runWith v k u := by
  simp [runWith, h]

/-- Settles O57: the first step leaves both blocks in one state, and the rest is one run. -/
theorem equalSeedsGiveEqualRuns : Obligations.EqualSeedsGiveEqualRuns := by
  intro v k r x qs ins ds s s' t t' hp hp' hi hi' hd hd' h h'
  rw [runWith_succ (stepWith_grant_seed v hp hi), hd] at h
  rw [runWith_succ (stepWith_grant_seed v hp' hi'), hd'] at h'
  exact Host.Outcome.next.inj (h.symm.trans h')

end Sys2Proof.Machine

/-! ### Proofs of the statements about the scalar outputs (41_scalar_outputs.md) -/

namespace Sys2Proof.Machine

/-! #### A scalar draw: its word and its step (R62, R65, R121 to R123) -/

/-- A word whose low byte is the code of a command that is no fill decodes to that command, with the operands of its
argument fields (R62, R65). -/
theorem decode_of_lowByte {w : CmdWord} {o : Opcode} (hfill : o.isFill = false) (h : w.extractLsb' 0 8 = 0#4 ++ o.code) :
    decode w = .ok (o.toInstr (cmdBuf w) (cmdArg0 w) (cmdArg1 w)) := by
  rw [decode_eq_ok_iff, toInstr_opcode]
  exact ⟨(hasControlBits_iff_of_not_fill w hfill).mpr h, rfl⟩

/-- A draw on a block that is not seeded, on this hardware (R202). -/
theorem exec_unseeded {i : Instr} {s : State} (hdraw : isDraw i = true) (h : s.engine = none) :
    exec i s = .next { s with response := some ⟨⟨.notSeeded, 0⟩, []⟩ } := by
  rw [← execWith_config, execWith_unseeded _ hdraw h]
  rfl

/-- A draw on a seeded block whose argument is invalid, on this hardware (R203). -/
theorem exec_invalid {i : Instr} {s : State} {w : Words} {d : Nat} (h : s.engine = some w)
    (hd : argumentError i = some d) :
    exec i s = .next { s with response := some ⟨⟨.invalidArgument, BitVec.ofNat 64 d⟩, []⟩ } := by
  rw [← execWith_config, execWith_invalid _ h hd]
  rfl

/-- A draw on a seeded block whose argument is valid, on this hardware (R103). -/
theorem exec_valid {i : Instr} {s : State} {w : Words} (hdraw : isDraw i = true) (h : s.engine = some w)
    (hd : argumentError i = none) :
    exec i s = .next { s with
      engine := some (advanceN (drawUnits i) w)
      response := some ⟨⟨.ok, commandData Config.sampleVariant i w⟩, commandBeats i w⟩ } := by
  rw [← execWith_config, execWith_valid _ hdraw h hd]
  rfl

/-- Zero extension keeps the number (R8). -/
theorem zext64_eq_ofNat (v : Word) : zext64 v = BitVec.ofNat 64 v.toNat := (BitVec.ofNat_toNat 64 v).symm

/-- Settles O14: a raw draw is 0 when s1 is the only word that is not. -/
theorem nextRawReturnsTheRawDraw : Obligations.NextRawReturnsTheRawDraw := by
  refine ⟨fun w h => decode_of_lowByte (o := .nextRaw) rfl h, fun s w hw => ⟨?_, advance_s3 w⟩,
    fun s hs => exec_unseeded rfl hs, ⟨⟨0, 1, 0, 0⟩, by decide, by decide⟩, by decide⟩
  rw [← zext64_eq_ofNat]
  exact exec_valid rfl hw rfl

/-- The mask of the low 31 bits is a remainder (R122). -/
theorem toNat_low31 (raw : Word) : (low31 raw).toNat = raw.toNat % 2 ^ 31 :=
  Nat.and_two_pow_sub_one_eq_mod raw.toNat 31

/-- Bit 31 is outside the mask (R122). -/
theorem low31_xor_bit31 (raw : Word) : low31 (raw ^^^ 0x80000000) = low31 raw := by
  exact BitVec.eq_of_toNat_eq (by simp [low31, Nat.and_xor_distrib_right])

/-- Settles O15: the mask keeps the remainder mod 2^31. -/
theorem nextReturnsTheLow31Bits : Obligations.NextReturnsTheLow31Bits := by
  refine ⟨fun w h => decode_of_lowByte (o := .next) rfl h, fun s w hw => ?_, fun s hs => exec_unseeded rfl hs,
    fun raw => ⟨?_, low31_xor_bit31 raw⟩, by decide, by decide, by decide⟩
  · rw [← toNat_low31, ← zext64_eq_ofNat]
    exact exec_valid rfl hw rfl
  · rw [toNat_low31]
    omega

/-- Settles O16: SAMPLE advances once and answers with the formula of SAMPLE_VARIANT. -/
theorem sampleReturnsTheSelectedFormula : Obligations.SampleReturnsTheSelectedFormula :=
  ⟨fun _ h => decode_of_lowByte (o := .sample) rfl h,
    fun _ _ hw => ⟨exec_valid rfl hw rfl, execWith_valid .unsignedDiv rfl hw rfl, execWith_valid .signedMul rfl hw rfl⟩,
    fun v _ hs => execWith_unseeded v rfl hs, by decide⟩

/-! #### Rounding, on integers (R128, R129) -/

/-- The number one unit above a 53-bit significand has a 53-bit significand too, and from an odd one an even one (R128). -/
theorem succ_significand {h : ℕ} (hlow : 2 ^ 52 ≤ h) (hhigh : h < 2 ^ 53) (e : ℕ) :
    ∃ m k : ℕ, (h + 1) * 2 ^ e = m * 2 ^ k ∧ 2 ^ 52 ≤ m ∧ m < 2 ^ 53 ∧ k ≤ e + 1 ∧ (h % 2 = 1 → m % 2 = 0) := by
  by_cases htop : h + 1 = 2 ^ 53
  · exact ⟨2 ^ 52, e + 1, by rw [htop, pow_succ 2 e]; ring, by norm_num⟩
  · exact ⟨h + 1, e, rfl, by omega⟩

/-- A rounded number has at most 53 significant bits (R128). -/
theorem rne53_representable (p : ℕ) : ∃ m k : ℕ, rne53 p = m * 2 ^ k ∧ m < 2 ^ 53 := by
  by_cases hp : p < 2 ^ 53
  · exact ⟨p, 0, by simp [rne53_of_lt hp], hp⟩
  obtain ⟨e, h, rem, -, -, hlow, hhigh, -, -, ⟨hr, -⟩ | ⟨hr, -⟩⟩ := rne53_cases (not_lt.mp hp)
  · exact ⟨h, e, hr, hhigh⟩
  · obtain ⟨m, k, hmk, -, hm, -, -⟩ := succ_significand hlow hhigh e
    exact ⟨m, k, hr.trans hmk, hm⟩

/-- A number of at most 53 significant bits is not rounded (R128). -/
theorem rne53_of_representable {m : ℕ} (hm : m < 2 ^ 53) (k : ℕ) : rne53 (m * 2 ^ k) = m * 2 ^ k :=
  le_antisymm (rne53_le hm le_rfl) (rne53_ge hm le_rfl)

theorem rne53_pos {p : ℕ} (hp : 0 < p) : 0 < rne53 p := by
  have h := rne53_ge (p := p) (m := 1) (k := 0) (by norm_num) (by omega)
  omega

theorem rne53_eq_zero_iff (p : ℕ) : rne53 p = 0 ↔ p = 0 := by
  have hpos := rne53_pos (p := p)
  refine ⟨fun h => by omega, ?_⟩
  rintro rfl
  rfl

/-- RNE64 rounds the magnitude (R9, R128). -/
theorem natAbs_rne64 (p : ℤ) : (rne64 p).natAbs = rne53 p.natAbs := by
  obtain ⟨a, rfl | rfl⟩ := p.eq_nat_or_neg <;> simp [rne64_neg]

/-- RNE64 keeps the sign (R9). -/
theorem rne64_neg_iff (p : ℤ) : rne64 p < 0 ↔ p < 0 := by
  rcases le_or_gt 0 p with h | h
  · rw [rne64, if_pos h]
    omega
  · have := rne53_pos (p := (-p).toNat) (by omega)
    rw [rne64, if_neg (by omega)]
    omega

/-- RNE64 takes no number but 0 to 0: the products are far above the least binary64 number (R9). -/
theorem rne64_eq_zero_iff (p : ℤ) : rne64 p = 0 ↔ p = 0 := by
  rw [← Int.natAbs_eq_zero, natAbs_rne64, rne53_eq_zero_iff, Int.natAbs_eq_zero]

/-! #### BOUNDED (R127 to R131) -/

/-- BOUNDED for n >= 0, on naturals. -/
theorem bounded_natCast (raw : Word) (n : ℕ) : bounded raw n = ((rne53 (raw.toNat * n) / 2 ^ 32 : ℕ) : ℤ) := by
  rw [bounded, ← Nat.cast_mul, rne64_natCast]
  rfl

/-- RNE64 keeps an integer of at most 53 bits (R9). -/
theorem rne64_of_lt {p : ℤ} (h : |p| < 2 ^ 53) : rne64 p = p := by
  obtain ⟨a, rfl | rfl⟩ := p.eq_nat_or_neg <;> simp [rne64_neg, rne53_of_lt (p := a) (by simpa using h)]

/-- BOUNDED is the exact floor where the product has at most 53 bits (R129). -/
theorem bounded_of_product_lt {raw : Word} {n : ℤ} (h : |(raw.toNat : ℤ) * n| < 2 ^ 53) :
    bounded raw n = (raw.toNat : ℤ) * n / 2 ^ 32 := by
  rw [bounded, rne64_of_lt h]

theorem abs_product_lt {raw : Word} {n : ℤ} (hn : |n| ≤ 2 ^ 21) : |(raw.toNat : ℤ) * n| < 2 ^ 53 := by
  rw [abs_mul, Nat.abs_cast]
  have hraw : (raw.toNat : ℤ) < 2 ^ 32 := by exact_mod_cast raw.isLt
  nlinarith [abs_nonneg n]

/-- Multiples of 2^32 are not rounded, and rounding does not cross them: the floor is exact or one more (R129). -/
theorem floor_rne53 {p : ℕ} (hp : p < 2 ^ 64) :
    rne53 p / 2 ^ 32 = p / 2 ^ 32 ∨ rne53 p / 2 ^ 32 = p / 2 ^ 32 + 1 := by
  have hge := rne53_ge (p := p) (m := p / 2 ^ 32) (k := 32) (by omega) (by omega)
  have hle := rne53_le (p := p) (m := p / 2 ^ 32 + 1) (k := 32) (by omega) (by omega)
  omega

theorem product_lt {raw : Word} {n : ℕ} (hn : n ≤ 2 ^ 32) : raw.toNat * n < 2 ^ 64 := by
  have hraw := raw.isLt
  nlinarith

/-- Settles O22: below 2^53 nothing is rounded; above it, rounding does not cross a multiple of 2^32. -/
theorem boundedIsExactFloorOrOneMore : Obligations.BoundedIsExactFloorOrOneMore := by
  refine ⟨fun raw n _ _ h => bounded_of_product_lt h, fun raw n => abs_product_lt, fun raw n h0 hn => ?_,
    by decide, by decide⟩
  lift n to ℕ using h0
  rw [bounded_natCast]
  exact_mod_cast floor_rne53 (product_lt (by exact_mod_cast hn))

/-- Below n * 2^32 stands a number of 53 significant bits at a distance of at most n: one unit in the last place of n (R131). -/
theorem exists_significand_below {n : ℕ} (hlow : 2 ^ 21 ≤ n) (hhigh : n ≤ 2 ^ 32) :
    ∃ m k : ℕ, m < 2 ^ 53 ∧ n * 2 ^ 32 ≤ m * 2 ^ k + n ∧ m * 2 ^ k < n * 2 ^ 32 := by
  have hb33 : bitLength n ≤ 33 := bitLength_le (by omega)
  have hb22 : 21 < bitLength n := by
    rw [← Nat.pow_lt_pow_iff_right (a := 2) (by norm_num)]
    exact hlow.trans_lt (lt_two_pow_bitLength n)
  obtain ⟨k, hk⟩ : ∃ k, bitLength n = 21 + k := ⟨bitLength n - 21, by omega⟩
  obtain ⟨i, hi⟩ : ∃ i, i + k = 32 := ⟨32 - k, by omega⟩
  have hsig : n * 2 ^ i < 2 ^ 53 := by
    calc n * 2 ^ i < 2 ^ bitLength n * 2 ^ i := Nat.mul_lt_mul_of_pos_right (lt_two_pow_bitLength n) (by positivity)
      _ = 2 ^ 53 := by rw [← pow_add, hk]; congr 1; omega
  have hulp : 2 ^ k ≤ n :=
    (Nat.pow_le_pow_right (by norm_num) (by omega)).trans (two_pow_bitLength_le (by omega))
  have hbelow : (n * 2 ^ i - 1) * 2 ^ k = n * 2 ^ 32 - 2 ^ k := by
    rw [Nat.sub_mul, Nat.mul_assoc, ← pow_add, hi, Nat.one_mul]
  have hpos : 0 < 2 ^ k := by positivity
  exact ⟨n * 2 ^ i - 1, k, by omega, by omega, by omega⟩

/-- Rounding the greatest product stays below n * 2^32 (R131). -/
theorem rne53_product_lt (raw : Word) {n : ℕ} (h1 : 1 ≤ n) (hn : n ≤ 2 ^ 32) : rne53 (raw.toNat * n) < n * 2 ^ 32 := by
  have hraw := raw.isLt
  have hprod : raw.toNat * n + n ≤ n * 2 ^ 32 := by nlinarith
  by_cases hsmall : n < 2 ^ 21
  · rw [rne53_of_lt (by omega)]
    omega
  · obtain ⟨m, k, hm, hnear, hbelow⟩ := exists_significand_below (not_lt.mp hsmall) hn
    exact (rne53_le hm (by omega)).trans_lt hbelow

/-- The range of BOUNDED for n >= 1 (R131). -/
theorem bounded_mem_range (raw : Word) {n : ℤ} (h1 : 1 ≤ n) (hn : n ≤ 2 ^ 32) :
    0 ≤ bounded raw n ∧ bounded raw n ≤ n - 1 := by
  lift n to ℕ using by omega
  have hlt : rne53 (raw.toNat * n) / 2 ^ 32 < n :=
    (Nat.div_lt_iff_lt_mul (by norm_num)).mpr (rne53_product_lt raw (by exact_mod_cast h1) (by exact_mod_cast hn))
  rw [bounded_natCast]
  omega

/-- BOUNDED for n = 0 (R127). -/
@[simp] theorem bounded_zero (raw : Word) : bounded raw 0 = 0 := by simp [bounded, rne64]; decide

/-- BOUNDED for the widest range is the raw draw: the product is not rounded (R132). -/
theorem bounded_two_pow_32 (raw : Word) : bounded raw (2 ^ 32) = raw.toNat := by
  have hraw := raw.isLt
  have hexact : rne53 (raw.toNat * 2 ^ 32) = raw.toNat * 2 ^ 32 := rne53_of_representable (by omega) 32
  rw [show (2 ^ 32 : ℤ) = ((2 ^ 32 : ℕ) : ℤ) by norm_num, bounded_natCast, hexact, Nat.mul_div_cancel _ (by norm_num)]

/-- BOUNDED for the wrapped scale of NEXT_MAX 2^31-1: the product is not rounded (R130). -/
theorem bounded_neg_two_pow_31 (raw : Word) : bounded raw (-2 ^ 31) = -(raw.toNat : ℤ) / 2 := by
  have hraw := raw.isLt
  have hexact : rne53 (raw.toNat * 2 ^ 31) = raw.toNat * 2 ^ 31 := rne53_of_representable (by omega) 31
  rw [bounded, show (raw.toNat : ℤ) * (-2 ^ 31) = -((raw.toNat * 2 ^ 31 : ℕ) : ℤ) by push_cast; ring, rne64_neg,
    rne64_natCast, hexact]
  omega

/-! #### NEXT_MAX and NEXT_RANGE (R130 to R133) -/

/-- An int32 result as DATA (R8, R72). -/
theorem sext64_u32 {x : ℤ} (h : IsInt32 x) : sext64 (u32 x) = BitVec.ofInt 64 x := by
  rw [sext64, BitVec.signExtend, u32, BitVec.toInt_ofInt_eq_self (by decide) h.1 h.2]

/-- NEXT_RANGE with ordered bounds (R132). -/
theorem exec_nextRange {lo hi : ℤ} {s : State} {w : Words} (hle : lo ≤ hi) (hw : s.engine = some w) :
    exec (.nextRange lo hi) s = .next { s with
      engine := some (advance w)
      response := some ⟨⟨.ok, sext64 (u32 (lo + bounded (rawDraw w) (hi - lo + 1)))⟩, []⟩ } :=
  exec_valid rfl hw (if_neg (not_lt.mpr hle))

/-- The result of NEXT_RANGE lies between its bounds (R133). -/
theorem nextRange_result_mem {lo hi : ℤ} (hlo : IsInt32 lo) (hhi : IsInt32 hi) (hle : lo ≤ hi) (raw : Word) :
    lo ≤ lo + bounded raw (hi - lo + 1) ∧ lo + bounded raw (hi - lo + 1) ≤ hi := by
  obtain ⟨h0, h1⟩ := bounded_mem_range raw (n := hi - lo + 1) (by omega) (by omega)
  omega

/-- NEXT_RANGE with ordered bounds: its result fits an int32, so DATA is that number (R72, R132, R133). -/
theorem exec_nextRange_int32 {lo hi : ℤ} {s : State} {w : Words} (hlo : IsInt32 lo) (hhi : IsInt32 hi) (hle : lo ≤ hi)
    (hw : s.engine = some w) :
    exec (.nextRange lo hi) s = .next { s with
      engine := some (advance w)
      response := some ⟨⟨.ok, BitVec.ofInt 64 (lo + bounded (rawDraw w) (hi - lo + 1))⟩, []⟩ } := by
  obtain ⟨h0, h1⟩ := nextRange_result_mem hlo hhi hle (rawDraw w)
  rw [exec_nextRange hle hw, sext64_u32 ⟨by omega, by omega⟩]

/-- Settles O24: the result is lo plus a BOUNDED in [0, hi - lo], so it fits an int32 and DATA carries it. -/
theorem nextRangeResultLiesInRange : Obligations.NextRangeResultLiesInRange := by
  intro lo hi s w hlo hhi hle hw
  obtain ⟨h0, h1⟩ := nextRange_result_mem hlo hhi hle (rawDraw w)
  exact ⟨_, h0, h1, exec_nextRange_int32 hlo hhi hle hw⟩

/-- NEXT_MAX with an argument that is not refused (R130). -/
theorem exec_nextMax {m : ℤ} {s : State} {w : Words} (hm : -1 ≤ m) (hw : s.engine = some w) :
    exec (.nextMax m) s = .next { s with
      engine := some (advance w)
      response := some ⟨⟨.ok, sext64 (u32 (bounded (rawDraw w) (nextMaxScale m)))⟩, []⟩ } :=
  exec_valid rfl hw (if_neg (not_lt.mpr hm))

/-- The scale of NEXT_MAX below the wrap (R130). -/
theorem nextMaxScale_of_lt {m : ℤ} (hm : -1 ≤ m) (hm' : m ≤ 2 ^ 31 - 2) : nextMaxScale m = m + 1 := by
  rw [nextMaxScale, s32, u32, BitVec.toInt_ofInt_eq_self (by decide) (by omega) (by omega)]

/-- The scale of NEXT_MAX at the wrap (R130). -/
theorem nextMaxScale_wrap : nextMaxScale (2 ^ 31 - 1) = -2 ^ 31 := by decide

/-- The result of NEXT_MAX is in [0, m] (R131). -/
theorem nextMax_result_mem {m : ℤ} (hm : 0 ≤ m) (hm' : m ≤ 2 ^ 31 - 2) (raw : Word) :
    0 ≤ bounded raw (m + 1) ∧ bounded raw (m + 1) ≤ m := by
  obtain ⟨h0, h1⟩ := bounded_mem_range raw (n := m + 1) (by omega) (by omega)
  omega

/-- Below the wrap the result of NEXT_MAX fits an int32, so DATA is that number (R72, R130, R131). -/
theorem exec_nextMax_int32 {m : ℤ} {s : State} {w : Words} (hm : -1 ≤ m) (hm' : m ≤ 2 ^ 31 - 2)
    (hw : s.engine = some w) :
    exec (.nextMax m) s = .next { s with
      engine := some (advance w), response := some ⟨⟨.ok, BitVec.ofInt 64 (bounded (rawDraw w) (m + 1))⟩, []⟩ } := by
  have hint : IsInt32 (bounded (rawDraw w) (m + 1)) := by
    rcases hm.eq_or_lt with rfl | hpos
    · rw [neg_add_cancel, bounded_zero]
      decide
    · obtain ⟨h0, h1⟩ := nextMax_result_mem (by omega) hm' (rawDraw w)
      exact ⟨by omega, by omega⟩
  rw [exec_nextMax hm hw, nextMaxScale_of_lt hm hm', sext64_u32 hint]

/-- Settles O23: a scale n >= 1 bounds BOUNDED by n - 1, and below the wrap the scale of NEXT_MAX m is m + 1. -/
theorem nextMaxResultLiesInRange : Obligations.NextMaxResultLiesInRange := by
  refine ⟨fun raw n => bounded_mem_range raw, fun m s w hm hm' hw => ?_⟩
  obtain ⟨h0, h1⟩ := nextMax_result_mem hm hm' (rawDraw w)
  exact ⟨_, h0, h1, exec_nextMax_int32 (by omega) hm' hw⟩

/-- Settles O25: below the wrap the scale is m + 1; at the wrap the product is halved exactly. -/
theorem nextMaxScalesOrRejects : Obligations.NextMaxScalesOrRejects := by
  refine ⟨fun w h => decode_of_lowByte (o := .nextMax) rfl h, fun m s w hm hw => ⟨?_, ?_, ?_, ?_, ?_, ?_⟩,
    fun m s _ hs => exec_unseeded rfl hs, by decide⟩
  · exact fun hlt => exec_invalid hw (if_pos hlt)
  · rintro rfl
    simpa using exec_nextMax_int32 (m := -1) (by norm_num) (by norm_num) hw
  · rintro rfl
    obtain ⟨h0, h1⟩ := nextMax_result_mem (m := 0) le_rfl (by norm_num) (rawDraw w)
    rw [exec_nextMax_int32 (by norm_num) (by norm_num) hw, le_antisymm h1 h0]
    rfl
  · exact fun hlo hhi => exec_nextMax_int32 hlo hhi hw
  · exact fun hlo hhi => nextMax_result_mem hlo hhi (rawDraw w)
  · rintro rfl
    have hraw := (rawDraw w).isLt
    have hval := bounded_neg_two_pow_31 (rawDraw w)
    have hceil : -((((rawDraw w).toNat : ℤ) + 1) / 2) = bounded (rawDraw w) (-2 ^ 31) := by omega
    have hfloor : ⌊-((rawDraw w).toNat : ℚ) / 2⌋ = -((rawDraw w).toNat : ℤ) / 2 := by
      exact_mod_cast Rat.floor_intCast_div_natCast (-((rawDraw w).toNat : ℤ)) 2
    refine ⟨?_, hval.trans hfloor.symm, by omega, by omega, by omega⟩
    rw [exec_nextMax (by norm_num) hw, nextMaxScale_wrap, hceil, sext64_u32 ⟨by omega, by omega⟩]

/-- From lo = 0 the range of NEXT_RANGE is that of NEXT_MAX below the wrap (R132). -/
theorem exec_nextRange_zero {m : ℤ} (hm : 0 ≤ m) (hm' : m ≤ 2 ^ 31 - 2) (s : State) :
    exec (.nextRange 0 m) s = exec (.nextMax m) s := by
  cases hs : s.engine with
  | none => rw [exec_unseeded rfl hs, exec_unseeded rfl hs]
  | some w =>
    rw [exec_nextRange hm hs, exec_nextMax (by omega) hs, nextMaxScale_of_lt (by omega) hm', zero_add, sub_zero]

/-- Settles O26: the one-element range has one result, and the widest range scales by 2^32. -/
theorem nextRangeScalesOrRejects : Obligations.NextRangeScalesOrRejects := by
  refine ⟨fun w h => decode_of_lowByte (o := .nextRange) rfl h, fun lo hi s w hlo hhi hw => ⟨?_, ?_, ?_, ?_⟩,
    fun lo hi s _ _ hs => exec_unseeded rfl hs, fun m s hm hm' => exec_nextRange_zero hm hm' s, by decide, by decide⟩
  · exact fun hlt => exec_invalid hw (if_pos hlt)
  · exact fun hle => ⟨exec_nextRange_int32 hlo hhi hle hw, nextRange_result_mem hlo hhi hle (rawDraw w)⟩
  · rintro rfl
    obtain ⟨h0, h1⟩ := nextRange_result_mem hlo hhi le_rfl (rawDraw w)
    rw [exec_nextRange_int32 hlo hhi le_rfl hw, le_antisymm h1 h0]
  · rintro rfl rfl
    rw [exec_nextRange_int32 hlo hhi (by norm_num) hw, show (2 ^ 31 - 1 - -2 ^ 31 + 1 : ℤ) = 2 ^ 32 by norm_num,
      bounded_two_pow_32, neg_add_eq_sub]

/-! #### RNE64 of a scaled integer, as a property of numbers (R9) -/

theorem IsBinary64.neg {x : ℚ} (h : IsBinary64 x) : IsBinary64 (-x) := by
  obtain ⟨m, k, hm, hlo, hhi, rfl⟩ := h
  exact ⟨-m, k, by rwa [abs_neg], hlo, hhi, by push_cast; ring⟩

/-- The even significand that R9 asks of a rounded tie. -/
def HasEvenSignificand (q : ℚ) : Prop :=
  ∃ m k : ℤ, 2 ^ 52 ≤ |m| ∧ |m| < 2 ^ 53 ∧ Even m ∧ q = m * 2 ^ k

theorem HasEvenSignificand.neg {q : ℚ} (h : HasEvenSignificand q) : HasEvenSignificand (-q) := by
  obtain ⟨m, k, h1, h2, heven, rfl⟩ := h
  exact ⟨-m, k, by rwa [abs_neg], by rwa [abs_neg], heven.neg, by push_cast; ring⟩

/-- Negation turns nearest numbers into nearest numbers and keeps the significand's last bit (R9). -/
theorem IsRne64.neg {x q : ℚ} (h : IsRne64 x q) : IsRne64 (-x) (-q) := by
  have hdist (y : ℚ) : |-x - y| = |x - -y| := by rw [← abs_neg (x - -y)]; congr 1; ring
  refine ⟨h.binary64.neg, fun y hy => ?_, fun y hy hne heq => ?_⟩
  · rw [hdist, hdist, neg_neg]
    exact h.nearest _ hy.neg
  · rw [hdist, hdist, neg_neg] at heq
    exact HasEvenSignificand.neg (h.tiesToEven _ hy.neg (by rwa [ne_eq, neg_eq_iff_eq_neg]) heq)

/-- A binary64 number is its own rounding (R9). -/
theorem isRne64_self {x : ℚ} (h : IsBinary64 x) : IsRne64 x x := by
  refine ⟨h, fun y _ => by simp, fun y _ hne heq => ?_⟩
  rw [sub_self, abs_zero, abs_eq_zero, sub_eq_zero] at heq
  exact absurd heq.symm hne

/-- Between two neighbours `a` and `b` with no binary64 number inside, a number not above the middle rounds to `a`; from the
middle itself it does so when a's significand is even (R9). -/
theorem isRne64_lower {x a b : ℚ} (ha : IsBinary64 a) (hax : a ≤ x)
    (hgap : ∀ y, IsBinary64 y → y ≤ a ∨ b ≤ y)
    (hmid : 2 * x < a + b ∨ 2 * x = a + b ∧ HasEvenSignificand a) : IsRne64 x a := by
  have hle : 2 * x ≤ a + b := hmid.elim le_of_lt fun h => h.1.le
  have hxa : |x - a| = x - a := abs_of_nonneg (by linarith)
  refine ⟨ha, fun y hy => ?_, fun y hy hne heq => ?_⟩
  · rw [hxa, le_abs]
    rcases hgap y hy with h | h
    · left; linarith
    · right; linarith
  · rcases hmid with hlt | ⟨-, heven⟩
    · rw [hxa] at heq
      rcases hgap y hy with h | h
      · rw [abs_of_nonneg (by linarith)] at heq
        exact absurd (by linarith) hne
      · have := neg_abs_le (x - y)
        linarith
    · exact heven

/-- The mirror image of `isRne64_lower`: a number not below the middle rounds to `b` (R9). -/
theorem isRne64_upper {x a b : ℚ} (hb : IsBinary64 b) (hxb : x ≤ b)
    (hgap : ∀ y, IsBinary64 y → y ≤ a ∨ b ≤ y)
    (hmid : a + b < 2 * x ∨ 2 * x = a + b ∧ HasEvenSignificand b) : IsRne64 x b := by
  have hneg : IsRne64 (-x) (-b) := by
    refine isRne64_lower (b := -a) hb.neg (by linarith) (fun y hy => ?_) ?_
    · rcases hgap (-y) hy.neg with h | h
      · right; linarith
      · left; linarith
    · rcases hmid with hlt | ⟨heq, heven⟩
      · left; linarith
      · exact .inr ⟨by linarith, heven.neg⟩
  simpa using hneg.neg

/-- Between neighbouring multiples of 2^j with 53-bit significands there is no binary64 number (R9). -/
theorem binary64_le_or_ge {h : ℕ} (hlow : 2 ^ 52 ≤ h) (j : ℤ) {y : ℚ} (hy : IsBinary64 y) :
    y ≤ (h : ℚ) * 2 ^ j ∨ ((h + 1 : ℕ) : ℚ) * 2 ^ j ≤ y := by
  obtain ⟨m, k, hm, -, -, rfl⟩ := hy
  have hpos : (0 : ℚ) < 2 ^ j := by positivity
  rcases le_or_gt j k with hjk | hkj
  · obtain ⟨d, rfl⟩ := Int.le.dest hjk
    have hgrid : (m : ℚ) * 2 ^ (j + (d : ℤ)) = ((m * 2 ^ d : ℤ) : ℚ) * 2 ^ j := by
      rw [zpow_add₀ two_ne_zero, zpow_natCast]; push_cast; ring
    rw [hgrid]
    rcases le_or_gt (m * 2 ^ d) (h : ℤ) with hz | hz
    · left
      exact mul_le_mul_of_nonneg_right (by exact_mod_cast hz) hpos.le
    · right
      exact mul_le_mul_of_nonneg_right (by exact_mod_cast hz) hpos.le
  · left
    have hhalf : (2 : ℚ) ^ k * 2 ≤ 2 ^ j := by
      rw [← zpow_add_one₀ two_ne_zero]
      exact zpow_le_zpow_right₀ one_le_two hkj
    have hmq : (m : ℚ) ≤ 2 ^ 53 := by exact_mod_cast (abs_lt.mp hm).2.le
    have hhq : (2 ^ 52 : ℚ) ≤ h := by exact_mod_cast hlow
    calc (m : ℚ) * 2 ^ k ≤ 2 ^ 53 * 2 ^ k := mul_le_mul_of_nonneg_right hmq (by positivity)
      _ = 2 ^ 52 * (2 ^ k * 2) := by ring
      _ ≤ h * 2 ^ j := mul_le_mul hhq hhalf (by positivity) (by positivity)

/-- Scaling by a power of two keeps the significand (R9). -/
theorem scaled_eq (m k : ℕ) (e : ℤ) : ((m * 2 ^ k : ℕ) : ℚ) * 2 ^ e = (m : ℤ) * 2 ^ (k + e) := by
  rw [zpow_add₀ two_ne_zero, zpow_natCast]
  push_cast
  ring

/-- A number of at most 53 significant bits, scaled inside the range of the exponent, is a binary64 number (R9). -/
theorem isBinary64_scaled {m k : ℕ} {e : ℤ} (hm : m < 2 ^ 53) (hlo : -1074 ≤ k + e) (hhi : k + e ≤ 971) :
    IsBinary64 (((m * 2 ^ k : ℕ) : ℚ) * 2 ^ e) :=
  ⟨m, k + e, by rw [Nat.abs_cast]; exact_mod_cast hm, hlo, hhi, scaled_eq m k e⟩

theorem hasEvenSignificand_scaled {m k : ℕ} {e : ℤ} (hlow : 2 ^ 52 ≤ m) (hhigh : m < 2 ^ 53) (heven : m % 2 = 0) :
    HasEvenSignificand (((m * 2 ^ k : ℕ) : ℚ) * 2 ^ e) :=
  ⟨m, k + e, by rw [Nat.abs_cast]; exact_mod_cast hlow, by rw [Nat.abs_cast]; exact_mod_cast hhigh,
    (Int.even_coe_nat m).mpr (Nat.even_iff.mpr heven), scaled_eq m k e⟩

/-- The integer rounding of R128 is RNE64, also of the number scaled by a power of two (R9, R125). -/
theorem isRne64_rne53 {p : ℕ} {e : ℤ} (hp : p < 2 ^ 64) (hlo : -1074 ≤ e) (hhi : e ≤ 900) :
    IsRne64 ((p : ℚ) * 2 ^ e) ((rne53 p : ℚ) * 2 ^ e) := by
  by_cases hsmall : p < 2 ^ 53
  · rw [rne53_of_lt hsmall]
    simpa using isRne64_self (isBinary64_scaled (k := 0) (e := e) hsmall (by omega) (by omega))
  obtain ⟨d, h, rem, hd, -, hlow, hhigh, hsplit, hrem, hcases⟩ := rne53_cases (not_lt.mp hsmall)
  obtain ⟨m, k, hmk, hmlow, hmhigh, hk, heven⟩ := succ_significand hlow hhigh d
  have hd11 : d ≤ 11 := by
    have := bitLength_le hp
    omega
  have hunit : (0 : ℚ) < 2 ^ e := by positivity
  have hgap (y : ℚ) (hy : IsBinary64 y) :
      y ≤ ((h * 2 ^ d : ℕ) : ℚ) * 2 ^ e ∨ (((h + 1) * 2 ^ d : ℕ) : ℚ) * 2 ^ e ≤ y := by
    rw [scaled_eq, scaled_eq]
    exact binary64_le_or_ge hlow (d + e) hy
  have hsum : ((h * 2 ^ d : ℕ) : ℚ) * 2 ^ e + (((h + 1) * 2 ^ d : ℕ) : ℚ) * 2 ^ e =
      ((h * 2 ^ d + (h + 1) * 2 ^ d : ℕ) : ℚ) * 2 ^ e := by push_cast; ring
  have hdouble : 2 * ((p : ℚ) * 2 ^ e) = ((2 * p : ℕ) : ℚ) * 2 ^ e := by push_cast; ring
  have hle {a b : ℕ} (hab : a ≤ b) : (a : ℚ) * 2 ^ e ≤ b * 2 ^ e :=
    mul_le_mul_of_nonneg_right (by exact_mod_cast hab) hunit.le
  have hlt {a b : ℕ} (hab : a < b) : (a : ℚ) * 2 ^ e < b * 2 ^ e :=
    mul_lt_mul_of_pos_right (by exact_mod_cast hab) hunit
  have hupper : (h + 1) * 2 ^ d = h * 2 ^ d + 2 ^ d := by ring
  rcases hcases with ⟨hround, hmid⟩ | ⟨hround, hmid⟩ <;> rw [hround]
  · refine isRne64_lower (isBinary64_scaled hhigh (by omega) (by omega)) (hle (by omega)) hgap ?_
    rw [hsum, hdouble]
    exact hmid.imp (fun hbelow => hlt (by omega)) fun ⟨htie, heven⟩ =>
      ⟨by congr 2; omega, hasEvenSignificand_scaled hlow hhigh heven⟩
  · refine isRne64_upper (hmk ▸ isBinary64_scaled hmhigh (by omega) (by omega)) (hle (by omega)) hgap ?_
    rw [hsum, hdouble]
    exact hmid.imp (fun habove => hlt (by omega)) fun ⟨htie, hodd⟩ =>
      ⟨by congr 2; omega, hmk ▸ hasEvenSignificand_scaled hmlow hmhigh (heven hodd)⟩

/-- The same for either sign (R9, R125). -/
theorem isRne64_rne64 {p e : ℤ} (hp : p.natAbs < 2 ^ 64) (hlo : -1074 ≤ e) (hhi : e ≤ 900) :
    IsRne64 ((p : ℚ) * 2 ^ e) ((rne64 p : ℚ) * 2 ^ e) := by
  obtain ⟨a, rfl | rfl⟩ := p.eq_nat_or_neg
  · simpa using isRne64_rne53 (by simpa using hp) hlo hhi
  · simpa [rne64_neg] using (isRne64_rne53 (p := a) (by simpa using hp) hlo hhi).neg

/-! #### SAMPLE (R124 to R126) -/

/-- The encoding of an integer of at most 53 significant bits, scaled inside the normal range or 0 (R9, R124, R125). -/
theorem value64_bits64_scaled {p e : ℤ} (hrep : ∃ m k : ℕ, p.natAbs = m * 2 ^ k ∧ m < 2 ^ 53)
    (hp : p.natAbs < 2 ^ 65) (hlo : -1022 ≤ e) (hhi : e ≤ 900) : value64 (bits64 p e) = (p : ℚ) * 2 ^ e := by
  by_cases h0 : p = 0
  · simp [h0, bits64]
  · have hpos := bitLength_pos (p := p.natAbs) (by omega)
    have hle := bitLength_le hp
    exact value64_bits64 h0 hrep (by omega) (by omega)

/-- The number SAMPLE_U returns (R124). -/
theorem value64_sampleU (raw : Word) : value64 (sampleU raw) = (raw.toNat : ℚ) / 2 ^ 32 := by
  have hraw := raw.isLt
  rw [sampleU, value64_bits64_scaled ⟨raw.toNat, 0, by simp, by omega⟩ (by omega) (by norm_num) (by norm_num)]
  norm_num [div_eq_mul_inv]

/-- Settles O17: a raw draw has 32 significant bits, so its encoding is exact. -/
theorem sampleUnsignedIsExactQuotient : Obligations.SampleUnsignedIsExactQuotient := by
  refine ⟨fun raw => ⟨value64_sampleU raw, ?_, ?_⟩, by decide, by decide⟩ <;> rw [value64_sampleU]
  · positivity
  · have hraw : (raw.toNat : ℚ) ≤ 2 ^ 32 - 1 := by
      have := raw.isLt
      exact_mod_cast (by omega : (raw.toNat : ℤ) ≤ 2 ^ 32 - 1)
    linarith

/-- The integer product of SAMPLE_S: s32(raw) * K is this number scaled by 2^-62 (R125). -/
def signedProduct (raw : Word) : ℤ := s32 raw * (2 ^ 31 + 1)

theorem signedProduct_bounds (raw : Word) :
    -((2 ^ 31 + 1) * 2 ^ 31) ≤ signedProduct raw ∧ signedProduct raw < 2 ^ 62 := by
  have hlow : -2 ^ 31 ≤ raw.toInt := by simpa using BitVec.le_toInt raw
  have hhigh : raw.toInt < 2 ^ 31 := by simpa using BitVec.toInt_lt (x := raw)
  unfold signedProduct s32
  omega

/-- Rounding the product stays between the two ends, which it does not round (R126). -/
theorem rne64_signedProduct_bounds (raw : Word) :
    -((2 ^ 31 + 1) * 2 ^ 31) ≤ rne64 (signedProduct raw) ∧ rne64 (signedProduct raw) ≤ 2 ^ 62 := by
  obtain ⟨hlow, hhigh⟩ := signedProduct_bounds raw
  have hneg := rne64_neg_iff (signedProduct raw)
  have habs := natAbs_rne64 (signedProduct raw)
  have hend := rne53_le (p := (signedProduct raw).natAbs) (m := 2 ^ 31 + 1) (k := 31) (by norm_num)
  have hone := rne53_le (p := (signedProduct raw).natAbs) (m := 1) (k := 62) (by norm_num)
  omega

/-- The number SAMPLE_S returns (R125). -/
theorem value64_sampleS (raw : Word) : value64 (sampleS raw) = (rne64 (signedProduct raw) : ℚ) / 2 ^ 62 := by
  obtain ⟨hlow, hhigh⟩ := rne64_signedProduct_bounds raw
  have hrep := rne53_representable (signedProduct raw).natAbs
  rw [← natAbs_rne64] at hrep
  have hbits : sampleS raw = bits64 (rne64 (signedProduct raw)) (-62) := rfl
  rw [hbits, value64_bits64_scaled hrep (by omega) (by norm_num) (by norm_num)]
  norm_num [div_eq_mul_inv]

/-- K is the number SAMPLE_S returns for raw 1 (R125). -/
theorem value64_K : value64 0x3E00000000200000 = 1 / 2 ^ 31 + 1 / 2 ^ 62 := by
  rw [show (0x3E00000000200000 : Data) = sampleS 1 by decide, value64_sampleS,
    show rne64 (signedProduct 1) = 2 ^ 31 + 1 by decide]
  norm_num

/-- Settles O18: K is (2^31 + 1) * 2^-62, so the product is an integer scaled by 2^-62, and the scaling is exact. -/
theorem sampleSignedIsRoundedProduct : Obligations.SampleSignedIsRoundedProduct := by
  refine ⟨value64_K, fun raw => ?_⟩
  obtain ⟨hlow, hhigh⟩ := signedProduct_bounds raw
  have hround := isRne64_rne64 (p := signedProduct raw) (e := -62) (by omega) (by norm_num) (by norm_num)
  have hexact : (raw.toInt : ℚ) * value64 0x3E00000000200000 = (signedProduct raw : ℚ) * 2 ^ (-62 : ℤ) := by
    rw [value64_K, signedProduct, s32]
    push_cast
    ring
  have hvalue : value64 (sampleS raw) = (rne64 (signedProduct raw) : ℚ) * 2 ^ (-62 : ℤ) := by
    rw [value64_sampleS]
    ring
  rwa [hexact, hvalue]

/-- Bit 31 is the sign of the two's complement reading (R8). -/
theorem toInt_neg_iff_bit31 (raw : Word) : raw.toInt < 0 ↔ raw.getLsbD 31 = true := by
  rw [← BitVec.msb_eq_getLsbD_last, BitVec.msb_eq_toInt, decide_eq_true_iff]

/-- SAMPLE_S is negative exactly when bit 31 is set (R126). -/
theorem value64_sampleS_neg_iff (raw : Word) : value64 (sampleS raw) < 0 ↔ raw.getLsbD 31 = true := by
  have hdiv : (rne64 (signedProduct raw) : ℚ) / 2 ^ 62 < 0 ↔ rne64 (signedProduct raw) < 0 := by
    rw [div_lt_iff₀ (by norm_num), zero_mul, Int.cast_lt_zero]
  have hprod : signedProduct raw < 0 ↔ raw.toInt < 0 := by
    unfold signedProduct s32
    omega
  rw [value64_sampleS, hdiv, rne64_neg_iff, hprod, toInt_neg_iff_bit31]

/-- SAMPLE_S is 0 for raw 0 alone (R126). -/
theorem value64_sampleS_eq_zero_iff (raw : Word) : value64 (sampleS raw) = 0 ↔ raw = 0 := by
  have hdiv : (rne64 (signedProduct raw) : ℚ) / 2 ^ 62 = 0 ↔ rne64 (signedProduct raw) = 0 := by
    rw [div_eq_zero_iff, Int.cast_eq_zero]
    norm_num
  have hprod : signedProduct raw = 0 ↔ raw = 0 := by
    rw [← BitVec.toInt_inj, show (0 : Word).toInt = 0 from rfl]
    unfold signedProduct s32
    omega
  rw [value64_sampleS, hdiv, rne64_eq_zero_iff, hprod]

/-- The end of the range at 0x80000000 (R126). -/
theorem value64_sampleS_least : value64 (sampleS 0x80000000) = -(1 + 1 / 2 ^ 31) := by
  rw [value64_sampleS, show rne64 (signedProduct 0x80000000) = -((2 ^ 31 + 1) * 2 ^ 31) by decide]
  norm_num

/-- Settles O19: the ends bound the rounded products, and rounding keeps the sign and the zero. -/
theorem sampleSignedRange : Obligations.SampleSignedRange := by
  refine ⟨fun raw => ⟨?_, ?_, value64_sampleS_neg_iff raw, value64_sampleS_eq_zero_iff raw⟩, by decide, by decide, ?_,
    by decide, ?_, ?_⟩
  · have hlow : (-((2 ^ 31 + 1) * 2 ^ 31) : ℚ) ≤ rne64 (signedProduct raw) := by
      exact_mod_cast (rne64_signedProduct_bounds raw).1
    rw [value64_sampleS_least, value64_sampleS]
    linarith
  · have hhigh : (rne64 (signedProduct raw) : ℚ) ≤ 2 ^ 62 := by
      exact_mod_cast (rne64_signedProduct_bounds raw).2
    rw [value64_sampleS]
    linarith
  · rw [show (0xBFF0000000200000 : Data) = sampleS 0x80000000 by decide, value64_sampleS_least]
  · rw [show (0x3FF0000000000000 : Data) = sampleS 0x7FFFFFFF by decide, value64_sampleS,
      show rne64 (signedProduct 0x7FFFFFFF) = 2 ^ 62 by decide]
    norm_num
  · rw [value64_sampleS, show rne64 (signedProduct 0x80000001) = -2 ^ 62 by decide]
    norm_num

end Sys2Proof.Machine

/-! ### Proofs of the statements about the fills (42_fill_outputs.md) -/

namespace Sys2Proof.Machine

/-! #### A fill: its word and its step (R62, R65, R160, R162) -/

/-- A word with RSV = 000 and the OP of a fill decodes to that fill, whatever its BUF (R62, R65). -/
theorem decode_of_fill {w : CmdWord} {o : Opcode} (hfill : o.isFill = true) (hrsv : cmdRsv w = 0)
    (hop : cmdOp w = o.code) :
    decode w = .ok (o.toInstr (cmdBuf w) (cmdArg0 w) (cmdArg1 w)) := by
  rw [decode_eq_ok_iff, toInstr_opcode]
  exact ⟨⟨hrsv, by simp [hfill], hop⟩, rfl⟩

/-- A valid draw of no units performs no ADVANCE: it changes the response alone (R103). -/
theorem exec_valid_of_no_units {i : Instr} {s : State} {w : Words} (hdraw : isDraw i = true) (hw : s.engine = some w)
    (hd : argumentError i = none) (hunits : drawUnits i = 0) :
    exec i s = .next { s with
      response := some ⟨⟨.ok, commandData Config.sampleVariant i w⟩, commandBeats i w⟩ } := by
  rw [exec_valid hdraw hw hd, hunits, advanceN_zero, ← hw]

/-! #### FILL_INT (R160) -/

/-- The beats of FILL_INT, element by element. -/
theorem intBeats_rawDraws (n : Nat) (w : Words) :
    intBeats (rawDraws n w) = (List.range n).map fun i => ⟨0xF, low31 (rawDraw (advanceN i w))⟩ := by
  rw [rawDraws_eq_map, intBeats, List.map_map]
  rfl

/-- FILL_INT with a buffer on a seeded block (R160). -/
theorem exec_fillInt (n : Nat) {s : State} {w : Words} (hw : s.engine = some w) :
    exec (.fillInt true n) s = .next { s with
      engine := some (advanceN n w)
      response := some ⟨⟨.ok, lengthData n⟩, intBeats (rawDraws n w)⟩ } :=
  exec_valid rfl hw rfl

/-- Settles O28: element `i` is made from the raw draw after `i` ADVANCEs. -/
theorem fillIntReturnsOneElementPerAdvance : Obligations.FillIntReturnsOneElementPerAdvance := by
  refine ⟨fun w hrsv hop => decode_of_fill (o := .fillInt) rfl hrsv hop,
    fun n s w _ hw => ⟨?_, exec_invalid hw rfl⟩, fun buf n s hs => exec_unseeded rfl hs,
    fun s w hw => exec_valid_of_no_units rfl hw rfl rfl, fun raw => by simp, by decide⟩
  rw [exec_fillInt n hw, intBeats_rawDraws]
  rfl

/-! #### FILL_INT and successive NEXT commands (R161) -/

/-- A sequence whose first command succeeds goes on from the state that command leaves. -/
theorem execAllOk_cons_of_ok {v : SampleVariant} {i : Instr} {s u : State} (h : execWith v i s = .next u)
    (hok : respondedOk u = true) (is : List Instr) : execAllOk v (i :: is) s = execAllOk v is u := by
  simp [execAllOk, h, hok]

/-- From a seeded state `n` NEXT commands all succeed, and each performs one ADVANCE (R103, R122). -/
theorem execAllOk_replicate_next (v : SampleVariant) (n : Nat) {s : State} {w : Words} (hw : s.engine = some w) :
    ∃ u, execAllOk v (List.replicate n .next) s = some u ∧ u.engine = some (advanceN n w) := by
  induction n generalizing s w with
  | zero => exact ⟨s, rfl, hw⟩
  | succ n ih =>
    rw [List.replicate_succ, execAllOk_cons_of_ok (execWith_valid v rfl hw rfl) rfl]
    exact ih rfl

/-- Settles O32: after `i` NEXT commands the words are those FILL_INT draws element `i` from. -/
theorem fillIntEqualsSuccessiveNexts : Obligations.FillIntEqualsSuccessiveNexts := by
  intro n s w _ hw
  obtain ⟨u, hu, huw⟩ := execAllOk_replicate_next Config.sampleVariant n hw
  refine ⟨_, _, u, exec_fillInt n hw, rfl, by simp [intBeats], hu, huw, fun i hi => ?_⟩
  obtain ⟨a, ha, haw⟩ := execAllOk_replicate_next Config.sampleVariant i hw
  exact ⟨a, _, _, ⟨0xF, low31 (rawDraw (advanceN i w))⟩, ha, exec_valid rfl haw rfl, rfl,
    by simp [intBeats_rawDraws, hi], rfl⟩

/-! #### FILL_BYTES (R162) -/

/-- `MASK(k)` keeps the remainder mod `2^(8k)`. -/
theorem and_byteMask (raw : Word) {k : Nat} (hk : k ≤ 4) :
    raw &&& byteMask k = BitVec.ofNat 32 (raw.toNat % 2 ^ (8 * k)) := by
  have hpow : 2 ^ (8 * k) ≤ 2 ^ 32 := Nat.pow_le_pow_right (by decide) (by omega)
  have hmask : (byteMask k).toNat = 2 ^ (8 * k) - 1 := by
    rw [byteMask, BitVec.toNat_ofNat, Nat.mod_eq_of_lt (by omega)]
  have hlt : raw.toNat % 2 ^ (8 * k) < 2 ^ 32 := (Nat.mod_lt _ (by positivity)).trans_le hpow
  apply BitVec.eq_of_toNat_eq
  rw [BitVec.toNat_and, hmask, Nat.and_two_pow_sub_one_eq_mod, BitVec.toNat_ofNat, Nat.mod_eq_of_lt hlt]

/-- The beat of group `j`, with the last group counted as the rule counts it (R162). -/
theorem byteBeat_of_lt {n j : Nat} (hj : j < byteGroups n) (raw : Word) :
    byteBeat n j raw =
      let k := if j = (n + 3) / 4 - 1 ∧ n % 4 ≠ 0 then n % 4 else 4
      ⟨BitVec.ofNat 4 (2 ^ k - 1), BitVec.ofNat 32 (raw.toNat % 2 ^ (8 * k))⟩ := by
  have hlast : j + 1 = byteGroups n ↔ j = (n + 3) / 4 - 1 := by
    unfold byteGroups at hj ⊢
    omega
  rw [byteBeat, and_byteMask raw (groupBytes_le n j), groupBytes, byteEnables]
  simp only [hlast]

/-- FILL_BYTES with a buffer on a seeded block (R162). -/
theorem exec_fillBytes (n : Nat) {s : State} {w : Words} (hw : s.engine = some w) :
    exec (.fillBytes true n) s = .next { s with
      engine := some (advanceN (byteGroups n) w)
      response := some ⟨⟨.ok, lengthData n⟩, byteBeats n (rawDraws (byteGroups n) w)⟩ } :=
  exec_valid rfl hw rfl

/-- Settles O29: beat `j` is made from the raw draw after `j` ADVANCEs. -/
theorem fillBytesReturnsOneGroupPerAdvance : Obligations.FillBytesReturnsOneGroupPerAdvance := by
  refine ⟨fun w hrsv hop => decode_of_fill (o := .fillBytes) rfl hrsv hop,
    fun n s w _ hw => ⟨?_, exec_invalid hw rfl⟩, fun buf n s hs => exec_unseeded rfl hs,
    fun s w hw => exec_valid_of_no_units rfl hw rfl rfl, by decide, by decide⟩
  rw [exec_fillBytes n hw, byteBeats_rawDraws,
    List.map_congr_left fun j hj => byteBeat_of_lt (List.mem_range.mp hj) (rawDraw (advanceN j w))]
  rfl

/-! #### The framing of FILL_BYTES (R163) -/

/-- A group of four bytes is the whole raw draw, all lanes enabled. -/
theorem byteBeat_full {n j : Nat} (h : groupBytes n j = 4) (raw : Word) : byteBeat n j raw = ⟨0xF, raw⟩ := by
  rw [byteBeat, h, show byteMask 4 = BitVec.allOnes 32 by decide, BitVec.and_allOnes]
  rfl

/-- Every group but a partial last one has four bytes. -/
theorem groupBytes_of_full {n j : Nat} (h : j + 1 < byteGroups n ∨ n % 4 = 0) : groupBytes n j = 4 :=
  if_neg (by omega)

/-- A partial last group has the bytes left over. -/
theorem groupBytes_of_partial {n j : Nat} (hlast : j + 1 = byteGroups n) (hpartial : n % 4 ≠ 0) :
    groupBytes n j = n % 4 := if_pos ⟨hlast, hpartial⟩

/-- The byte enables of a partial group (R163). -/
theorem byteEnables_of_partial {k : Nat} (hk : k < 4) (hpos : k ≠ 0) :
    byteEnables k = (1#4 <<< k) - 1 ∧ (byteEnables k = 0x1 ∨ byteEnables k = 0x3 ∨ byteEnables k = 0x7) := by
  decide +revert

/-- The popcount of BE is the number of bytes the beat carries. -/
theorem count_eq_length_bytes (b : Beat) : b.count = b.bytes.length := by
  rw [Beat.count, Beat.bytes, List.length_map, List.countP_eq_length_filter]

/-- The popcounts of FILL_BYTES' beats add up to the length (R163). -/
theorem sum_count_byteBeats (n : Nat) (w : Words) :
    ((byteBeats n (rawDraws (byteGroups n) w)).map Beat.count).sum = n := by
  rw [funext count_eq_length_bytes, ← List.length_flatMap, flatMap_bytes_byteBeats, List.length_map, List.length_range]

/-- Beat `j` of FILL_BYTES is the beat of group `j`, made from raw draw `j`. -/
theorem eq_byteBeat_of_getElem? {n g j : Nat} {w : Words} {b : Beat} (h : (byteBeats n (rawDraws g w))[j]? = some b) :
    b = byteBeat n j (rawDraw (advanceN j w)) := by
  rw [byteBeats_rawDraws] at h
  obtain ⟨hj, rfl⟩ := List.getElem?_eq_some_iff.mp h
  simp

/-- Settles O31: a group's beat is full or partial as its number of bytes is, and the bytes are counted by O30's lemma. -/
theorem fillBytesBeatFraming : Obligations.FillBytesBeatFraming := by
  intro n s w _ hw
  obtain ⟨t, r, hexec, hresp, hbeats⟩ := exec_fillBytes_beats n hw
  refine ⟨t, r, hexec, hresp, ?_, ?_, ?_, ?_⟩ <;> rw [hbeats]
  · simp [byteBeats, byteGroups]
  · intro j b hb hfull
    rw [eq_byteBeat_of_getElem? hb, byteBeat_full (groupBytes_of_full hfull)]
    exact ⟨rfl, rfl⟩
  · intro j b hb hlast hpartial
    have hk : n % 4 < 4 := Nat.mod_lt n (by decide)
    obtain ⟨hbe, hvalues⟩ := byteEnables_of_partial hk hpartial
    rw [eq_byteBeat_of_getElem? hb, byteBeat, groupBytes_of_partial hlast hpartial]
    exact ⟨hbe, hvalues, fun k hlt => extractByte_and_byteMask _ hk.le hlt⟩
  · exact sum_count_byteBeats n w

/-! #### FILL_BYTES 4 and NEXT_RAW (R164) -/

/-- Zero extension keeps the low 32 bits (R8). -/
theorem extractLsb'_zext64 (v : Word) : (zext64 v).extractLsb' 0 32 = v :=
  (BitVec.extractLsb'_setWidth_of_le (by decide)).trans BitVec.extractLsb'_eq_self

/-- Settles O33: four bytes are one full group. -/
theorem fillFourBytesEqualsNextRaw : Obligations.FillFourBytesEqualsNextRaw := by
  intro s w hw
  have hbeats : byteBeats 4 (rawDraws (byteGroups 4) w) = [⟨0xF, rawDraw w⟩] := by
    rw [← byteBeat_full (groupBytes_of_full (n := 4) (j := 0) (.inr rfl)) (rawDraw w)]
    rfl
  exact ⟨_, _, _, _, exec_fillBytes 4 hw, exec_valid (i := .nextRaw) rfl hw rfl, rfl, rfl, by rw [hbeats]; rfl, rfl,
    (extractLsb'_zext64 _).symm, rfl⟩

end Sys2Proof.Machine

/-! ### Proofs of the statements about the errors (60_exceptions.md) -/

namespace Sys2Proof.Machine

/-! #### ILLEGAL_COMMAND (R201) -/

/-- A reserved opcode is answered with detail 1, whatever the flags (R201, R205). -/
theorem runWord_reservedOpcode (v : SampleVariant) {w : CmdWord} (hop : cmdOp w = 0 ∨ 9 ≤ (cmdOp w).toNat) (s : State) :
    runWord v w s = .next { s with response := some ⟨⟨.illegalCommand, 1⟩, []⟩ } := by
  obtain ⟨hreserved, -, -⟩ := decodingIsTotalInOrder w
  exact runWord_error v (hreserved.mpr hop) s

/-- Reserved flags under a defined opcode are answered with detail 2 (R201, R205). -/
theorem runWord_reservedFlags (v : SampleVariant) {w : CmdWord} (hlo : 1 ≤ (cmdOp w).toNat) (hhi : (cmdOp w).toNat ≤ 8)
    (hflags : cmdRsv w ≠ 0 ∨ cmdBuf w = true ∧ ¬ (cmdOp w = 0x7 ∨ cmdOp w = 0x8)) (s : State) :
    runWord v w s = .next { s with response := some ⟨⟨.illegalCommand, 2⟩, []⟩ } := by
  obtain ⟨-, hreserved, -⟩ := decodingIsTotalInOrder w
  exact runWord_error v (hreserved.mpr ⟨⟨hlo, hhi⟩, hflags⟩) s

/-- A command raises an error other than ILLEGAL_COMMAND, or is answered OK (R200, R202, R203). -/
theorem execWith_raises_or_ok (v : SampleVariant) (i : Instr) (s : State) :
    (∃ st d, execWith v i s = .next (raise st d s) ∧ st ≠ .illegalCommand) ∨
    ∃ t r, execWith v i s = .next t ∧ t.response = some r ∧ r.header.status = .ok := by
  rcases execWith_cases v i s with ⟨x, -, h⟩ | ⟨-, -, h⟩ | ⟨-, w, d, -, -, h⟩ | ⟨-, w, -, -, h⟩
  · exact .inr ⟨_, _, h, respond_response .., rfl⟩
  · exact .inl ⟨_, _, h, nofun⟩
  · exact .inl ⟨_, _, h, nofun⟩
  · exact .inr ⟨_, _, h, respond_response .., rfl⟩

/-- A command that decodes is never answered ILLEGAL_COMMAND (R201). -/
theorem execWith_status_ne_illegalCommand (v : SampleVariant) (i : Instr) (s : State) :
    ∃ t r, execWith v i s = .next t ∧ t.response = some r ∧ r.header.status ≠ .illegalCommand := by
  rcases execWith_raises_or_ok v i s with ⟨st, d, h, hst⟩ | ⟨t, r, h, hr, hok⟩
  · exact ⟨_, _, h, raise_response .., hst⟩
  · exact ⟨t, r, h, hr, by simp [hok]⟩

/-- Settles O58: the three clauses are the three outcomes of decoding. -/
theorem illegalCommandExactlyByTable : Obligations.IllegalCommandExactlyByTable := by
  refine fun v w s => ⟨fun hop => runWord_reservedOpcode v hop s,
    fun hlo hhi hflags => runWord_reservedFlags v hlo hhi hflags s, fun hlo hhi hrsv hbuf => ?_⟩
  obtain ⟨-, -, hlegal⟩ := decodingIsTotalInOrder w
  obtain ⟨i, hi⟩ := hlegal.mpr ⟨⟨hlo, hhi⟩, hrsv, hbuf⟩
  rw [runWord_ok v hi]
  exact execWith_status_ne_illegalCommand v i s

/-! #### NOT_SEEDED and INVALID_ARGUMENT (R202, R203) -/

/-- Settles O3: SEED answers OK in every state. -/
theorem drawsBeforeSeedAnswerNotSeeded : Obligations.DrawsBeforeSeedAnswerNotSeeded :=
  ⟨fun v _ _ hs hdraw => execWith_unseeded v hdraw hs,
    fun v x s => ⟨_, _, execWith_seed v x s, respond_response .., by decide⟩⟩

/-- On a seeded block a command that meets no condition of the table is answered OK (R203). -/
theorem execWith_ok_of_no_argumentError (v : SampleVariant) {i : Instr} {s : State} {w : Words} (hw : s.engine = some w)
    (hd : argumentError i = none) :
    ∃ t r, execWith v i s = .next t ∧ t.response = some r ∧ r.header.status = .ok := by
  rcases execWith_cases v i s with ⟨x, -, h⟩ | ⟨-, hunseeded, -⟩ | ⟨-, _, d, -, hd', -⟩ | ⟨-, _, -, -, h⟩
  · exact ⟨_, _, h, respond_response .., rfl⟩
  · simp [hw] at hunseeded
  · simp [hd] at hd'
  · exact ⟨_, _, h, respond_response .., rfl⟩

/-- Settles O38, by whether the command meets its condition. -/
theorem invalidArgumentExactlyByTable : Obligations.InvalidArgumentExactlyByTable := by
  intro v i s hs _
  obtain ⟨w, hw⟩ := (seeded_eq_true s).mp hs
  cases hd : argumentError i with
  | some d => exact ⟨_, _, execWith_invalid v hw hd, raise_response .., raise_eq ..⟩
  | none => exact execWith_ok_of_no_argumentError v hw hd

/-! #### Errors are precise, and their priority (R204, R205) -/

/-- A word raises an error, or is answered OK (R200, R204). -/
theorem runWord_raises_or_ok (v : SampleVariant) (w : CmdWord) (s : State) :
    (∃ st d, runWord v w s = .next (raise st d s)) ∨
    ∃ t r, runWord v w s = .next t ∧ t.response = some r ∧ r.header.status = .ok := by
  cases hdec : decode w with
  | error e => exact .inl ⟨_, _, runWord_error v hdec s⟩
  | ok i =>
    rw [runWord_ok v hdec]
    exact (execWith_raises_or_ok v i s).imp_left fun ⟨st, d, h, _⟩ => ⟨st, d, h⟩

/-- Settles O36: the one way of taking an error is `raise`. -/
theorem errorsLeaveStateUnchanged : Obligations.ErrorsLeaveStateUnchanged := by
  intro v w s t r hrun hr herr
  rcases runWord_raises_or_ok v w s with ⟨st, d, h⟩ | ⟨t', r', h, hr', hok⟩ <;>
    obtain rfl := Host.Outcome.next.inj (h.symm.trans hrun)
  · obtain rfl := Option.some.inj hr
    exact ⟨raise_eq st d s, rfl⟩
  · obtain rfl := Option.some.inj (hr'.symm.trans hr)
    exact absurd hok herr

/-- A word of a draw on a block that is not seeded, whatever its arguments (R202, R205). -/
theorem runWord_unseeded (v : SampleVariant) {w : CmdWord} {i : Instr} {s : State} (hi : decode w = .ok i)
    (hdraw : isDraw i = true) (hs : s.engine = none) :
    runWord v w s = .next { s with response := some ⟨⟨.notSeeded, 0⟩, []⟩ } :=
  (runWord_ok v hi s).trans (execWith_unseeded v hdraw hs)

/-- Settles O37: each level is one outcome of decoding or one check of a draw, and each example stands at one level. -/
theorem errorPriority : Obligations.ErrorPriority := by
  refine ⟨fun v w s hop => runWord_reservedOpcode v hop s, fun v w s hlo hhi hflags => ?_,
    fun v w i s hi hdraw hs => runWord_unseeded v hi hdraw hs, fun v w i s d hi hs hd => ?_,
    runWord_unseeded _ (i := .fillBytes false 0) (by decide) rfl rfl,
    runWord_unseeded _ (i := .nextRange 5 1) (by decide) rfl rfl,
    runWord_reservedOpcode _ (by decide)⟩
  · have hnofill (hlt : (cmdOp w).toNat < 7) : ¬ (cmdOp w = 0x7 ∨ cmdOp w = 0x8) := by
      rintro (h | h) <;> simp [h] at hlt
    exact runWord_reservedFlags v hlo hhi (hflags.imp_right (And.imp_right hnofill)) s
  · obtain ⟨u, hu⟩ := (seeded_eq_true s).mp hs
    exact (runWord_ok v hi s).trans (execWith_invalid v hu hd)

end Sys2Proof.Machine

/-! ### Proofs of the statements about reset (70_reset_and_hazards.md) -/

namespace Sys2Proof.Machine

/-- A reset leaves the reset state, and the later events to come (R230, R231; log entry 6). -/
theorem stepWith_reset (v : SampleVariant) {s : State} {rest : List Input} (h : s.inputs = .reset :: rest) :
    stepWith v s = .next { State.reset with inputs := rest } := by
  simp [stepWith, h, accept, resetBlock]

/-- Settles O1: each element of the reset state has its own lemma, and SEEDED follows the state words. -/
theorem resetHoldsNoValueAndNoCommand : Obligations.ResetHoldsNoValueAndNoCommand :=
  ⟨reset_engine, (seeded_eq_false _).mpr reset_engine, reset_pending, reset_delivered, reset_response⟩

/-- Settles O2: the step ends in the reset state, where no response is delivered; then draws and SEED follow R202 and R101. -/
theorem resetDiscardsCommandsAndUnseeds : Obligations.ResetDiscardsCommandsAndUnseeds := by
  refine ⟨fun v s rest h => ?_, fun v i s hs hdraw => ?_, fun x s _ => ?_⟩
  · obtain ⟨hengine, hseeded, hpending, -, hresponse⟩ := resetHoldsNoValueAndNoCommand
    exact ⟨_, stepWith_reset v h, hseeded, hengine, hpending, hresponse, by simp⟩
  · exact execWith_unseeded v hdraw ((seeded_eq_false s).mp hs)
  · exact ⟨_, exec_seed x s, rfl⟩

end Sys2Proof.Machine

/-! ### Proofs of the statements about encoding (30_encoding.md R60 to R66, R73, R75) -/

namespace Sys2Proof

/-! #### A command's own word -/

/-- The word of a command has the control bits of its opcode (R60, R64). -/
theorem hasControlBits_encode (i : Instr) : HasControlBits (encode i) i.opcode := by
  cases i <;> simp [HasControlBits, encode, Instr.opcode, Opcode.isFill]

/-- An int32 operand survives its field (R8, R62). -/
theorem toInt_ofInt_of_isInt32 {m : ℤ} (h : IsInt32 m) : (BitVec.ofInt 32 m).toInt = m :=
  BitVec.toInt_ofInt_eq_self (by decide) h.1 h.2

/-- A length survives its field (R4, R62). -/
theorem toNat_ofNat_of_isU32 {n : ℕ} (h : IsU32 n) : (BitVec.ofNat 32 n).toNat = n := by
  rw [BitVec.toNat_ofNat, Nat.mod_eq_of_lt h]

/-- The argument fields of a well-formed command's word read back as its operands (R62). -/
theorem toInstr_encode {i : Instr} (h : i.WellFormed) :
    i.opcode.toInstr (cmdBuf (encode i)) (cmdArg0 (encode i)) (cmdArg1 (encode i)) = i := by
  cases i with
  | seed x => simp [Instr.opcode, encode, Opcode.toInstr]
  | nextRaw | next | sample => rfl
  | nextMax m =>
    have hm : IsInt32 m := of_decide_eq_true h
    simp [Instr.opcode, encode, Opcode.toInstr, toInt_ofInt_of_isInt32 hm]
  | nextRange lo hi =>
    obtain ⟨hlo, hhi⟩ : IsInt32 lo ∧ IsInt32 hi := by
      simpa only [Instr.WellFormed, Instr.wellFormed, Bool.and_eq_true, decide_eq_true_iff] using h
    simp [Instr.opcode, encode, Opcode.toInstr, toInt_ofInt_of_isInt32 hlo, toInt_ofInt_of_isInt32 hhi]
  | fillInt buf n | fillBytes buf n =>
    have hn : IsU32 n := of_decide_eq_true h
    simp only [Instr.opcode, encode, Opcode.toInstr, cmdBuf_cmdWord, cmdArg0_cmdWord, toNat_ofNat_of_isU32 hn]

/-- Settles O46: the control bits select the command's opcode, and the argument fields give its operands back. -/
theorem decodeOfEncodeIsTheCommand : Obligations.DecodeOfEncodeIsTheCommand :=
  fun i h => decode_eq_ok_iff.mpr ⟨hasControlBits_encode i, toInstr_encode h⟩

/-! #### The word of what a word decodes to -/

/-- What decodes is well formed (R62). -/
theorem wellFormed_of_decode {w : CmdWord} {i : Instr} (h : decode w = .ok i) : i.WellFormed := by
  obtain ⟨o, -, -, -, rfl⟩ := decode_ok h
  exact toInstr_wellFormed o ..

/-- Masking a word masks each of its fields (R60). -/
theorem cmdWord_and (a1 a0 a1' a0' : Word) (r r' : BitVec 3) (b b' : Bool) (c c' : BitVec 4) :
    cmdWord a1 a0 r b c &&& cmdWord a1' a0' r' b' c' =
      cmdWord (a1 &&& a1') (a0 &&& a0') (r &&& r') (b && b') (c &&& c') := by
  unfold cmdWord
  rw [BitVec.and_append, BitVec.and_append, BitVec.and_append, BitVec.and_append, BitVec.ofBool_and_ofBool]

/-- An opcode's code survives the mask of OP, which is all ones (R60). -/
theorem code_and_mask (o : Opcode) : o.code &&& 15#4 = o.code := BitVec.and_allOnes

/-- Encoding the operands an opcode takes from the fields of a word clears its ignored fields (R62, R63). -/
theorem encode_toInstr (o : Opcode) {b : Bool} (hb : b = true → o.isFill = true) (a0 a1 : Word) :
    encode (o.toInstr b a0 a1) = cmdWord a1 a0 0 b o.code &&& o.operandMask := by
  cases o with
  | seed | nextRaw | next | sample | nextMax | nextRange =>
    obtain rfl : b = false := by simpa [Opcode.isFill] using hb
    simp [Opcode.toInstr, encode, Opcode.operandMask, cmdWord_and, code_and_mask, -BitVec.reduceAllOnes]
  | fillInt | fillBytes =>
    simp [Opcode.toInstr, encode, Opcode.operandMask, cmdWord_and, code_and_mask, -BitVec.reduceAllOnes]

/-- Settles O47: a word is its fields, and what it decodes to is encoded from the fields that are not ignored. -/
theorem encodeOfDecodeKeepsOperandBits : Obligations.EncodeOfDecodeKeepsOperandBits := by
  intro w i h
  refine ⟨wellFormed_of_decode h, ?_⟩
  obtain ⟨o, hop, hrsv, hbuf, rfl⟩ := decode_ok h
  have hfields : cmdWord (cmdArg1 w) (cmdArg0 w) 0 (cmdBuf w) o.code = w := by
    rw [← hrsv, code_of_opcodeOf hop, cmdWord_fields]
  rw [encode_toInstr o hbuf, toInstr_opcode, hfields]

end Sys2Proof

namespace Sys2Proof.Machine

/-! #### The beat (R73) -/

theorem Beat.be_toWord (b : Beat) : b.toWord.extractLsb' 32 4 = b.be := BitVec.extractLsb'_append_eq_left

theorem Beat.bdata_toWord (b : Beat) : b.toWord.extractLsb' 0 32 = b.bdata := BitVec.extractLsb'_append_eq_right

theorem Beat.ofWord_toWord (b : Beat) : Beat.ofWord b.toWord = b := by
  rw [Beat.ofWord, b.be_toWord, b.bdata_toWord]

theorem Beat.toWord_ofWord (w : BitVec 36) : (Beat.ofWord w).toWord = w :=
  BitVec.extractLsb'_append_extractLsb' (len := 32) (w := 4)

/-- Settles O49: a beat's word is its two fields end to end, and a word is cut into the same two. -/
theorem beatBitsCarryEnablesAndData : Obligations.BeatBitsCarryEnablesAndData :=
  ⟨fun be d => ⟨Beat.be_toWord ⟨be, d⟩, Beat.bdata_toWord ⟨be, d⟩⟩, Beat.ofWord_toWord, Beat.toWord_ofWord⟩

/-! #### Words and lines written out in the spec (95_test_vectors.md) -/

/-- Settles O50, by decoding each word. -/
theorem specWordsDecode : Obligations.SpecWordsDecode := by
  unfold Obligations.SpecWordsDecode
  decide

/-- Settles O51, by assembling each line. -/
theorem programLinesAssemble : Obligations.ProgramLinesAssemble := by
  unfold Obligations.ProgramLinesAssemble
  decide

end Sys2Proof.Machine

/-! ### Proofs of the statements about what every step keeps (10_state.md R23; 30_encoding.md R72 to R74) -/

namespace Sys2Proof.Machine

/-! #### The beats of a success (R73, R74) -/

theorem Beat.wellFormed_of_full {b : Beat} (h : b.be = 0xF) : b.WellFormed := by
  refine ⟨.inr (.inr (.inr h)), fun k hk hoff => ?_⟩
  have hon : ∀ i < 4, (0xF : BitVec 4).getLsbD i = true := by decide
  rw [h, hon k hk] at hoff
  cases hoff

/-- An element of FILL_INT has all lanes enabled and bit 31 clear (R160). -/
theorem full_of_mem_intBeats {raws : List Word} {b : Beat} (h : b ∈ intBeats raws) :
    b.be = 0xF ∧ b.bdata.getLsbD 31 = false := by
  obtain ⟨raw, -, rfl⟩ := List.mem_map.mp h
  exact ⟨rfl, by simp [low31]⟩

/-- A group holds at least one byte (R162). -/
theorem groupBytes_pos (n j : Nat) : 0 < groupBytes n j := by
  unfold groupBytes
  split <;> omega

/-- A byte from `k` on lies outside `MASK(k)`, so masking clears it. -/
theorem extractByte_and_byteMask_of_le (raw : Word) {i k : Nat} (hki : k ≤ i) :
    (raw &&& byteMask k).extractLsb' (8 * i) 8 = 0 := by
  refine BitVec.eq_of_getLsbD_eq fun b hb => ?_
  have hmask : ¬ 8 * i + b < 8 * k := by omega
  simp [byteMask, BitVec.getLsbD_ofNat, Nat.testBit_two_pow_sub_one, hmask]

/-- `byteEnables k` is one of the four values a beat may have, and enables every lane below `k` (R73, R163). -/
theorem byteEnables_values {k : Nat} (hk : k ≤ 4) (hpos : 0 < k) :
    (byteEnables k = 0x1 ∨ byteEnables k = 0x3 ∨ byteEnables k = 0x7 ∨ byteEnables k = 0xF) ∧
    ∀ i < k, (byteEnables k).getLsbD i = true := by
  decide +revert

theorem byteBeat_wellFormed (n j : Nat) (raw : Word) : (byteBeat n j raw).WellFormed := by
  obtain ⟨hvalues, hon⟩ := byteEnables_values (groupBytes_le n j) (groupBytes_pos n j)
  refine ⟨hvalues, fun i _ hoff => extractByte_and_byteMask_of_le raw ?_⟩
  by_contra hlt
  exact absurd (hon i (by omega)) (by simpa [byteBeat] using hoff)

/-- The beats of FILL_BYTES but the last are full (R74, R163). -/
theorem full_of_mem_dropLast_byteBeats {n : Nat} {w : Words} {b : Beat}
    (h : b ∈ (byteBeats n (rawDraws (byteGroups n) w)).dropLast) : b.be = 0xF := by
  obtain ⟨j, hj⟩ := List.mem_iff_getElem?.mp h
  rw [List.getElem?_dropLast] at hj
  obtain ⟨hlt, hj⟩ := Option.ite_none_right_eq_some.mp hj
  have hbefore : j + 1 < byteGroups n := by
    rw [byteBeats, List.length_mapIdx, rawDraws_length] at hlt
    omega
  rw [eq_byteBeat_of_getElem? hj, byteBeat_full (groupBytes_of_full (.inl hbefore))]

/-- Every beat of a success is well formed (R73). -/
theorem commandBeats_wellFormed (i : Instr) (u : Words) : ∀ b ∈ commandBeats i u, b.WellFormed := by
  cases i with
  | seed | nextRaw | next | sample | nextMax | nextRange => exact List.forall_mem_nil _
  | fillInt buf n => exact fun b hb => Beat.wellFormed_of_full (full_of_mem_intBeats hb).1
  | fillBytes buf n =>
    intro b hb
    obtain ⟨j, hj⟩ := List.mem_iff_getElem?.mp hb
    rw [eq_byteBeat_of_getElem? hj]
    exact byteBeat_wellFormed n j _

/-- Only the last beat of a success may be partial (R74). -/
theorem commandBeats_dropLast_full (i : Instr) (u : Words) : ∀ b ∈ (commandBeats i u).dropLast, b.be = 0xF := by
  cases i with
  | seed | nextRaw | next | sample | nextMax | nextRange => exact List.forall_mem_nil _
  | fillInt buf n => exact fun b hb => (full_of_mem_intBeats (List.mem_of_mem_dropLast hb)).1
  | fillBytes buf n => exact fun b hb => full_of_mem_dropLast_byteBeats hb

/-! #### The DATA of a success (R72) -/

/-- A length is a u32, so DATA holds it (R62, R72). -/
theorem toNat_lengthData {n : Nat} (h : IsU32 n) : (lengthData n).toNat = n := by
  rw [lengthData, BitVec.toNat_ofNat, Nat.mod_eq_of_lt (by omega)]

/-- The DATA of a well-formed command's success fits its beats (R68, R72, R74). -/
theorem commandData_isSuccess (v : SampleVariant) {i : Instr} (hi : i.WellFormed) (u : Words) :
    Response.IsSuccess v ⟨⟨.ok, commandData v i u⟩, commandBeats i u⟩ := by
  cases i with
  | seed x => exact .inl ⟨rfl, 0, .inl rfl⟩
  | nextRaw | next => exact .inl ⟨rfl, _, .inl rfl⟩
  | sample => exact .inl ⟨rfl, _, .inr (.inr rfl)⟩
  | nextMax m | nextRange lo hi => exact .inl ⟨rfl, _, .inr (.inl rfl)⟩
  | fillInt buf n =>
    have hn : IsU32 n := of_decide_eq_true hi
    have hdata : (commandData v (.fillInt buf n) u).toNat = n := toNat_lengthData hn
    exact .inr (.inl ⟨hdata.trans_lt hn, hdata.trans (by simp [commandBeats, intBeats]), fun b => full_of_mem_intBeats⟩)
  | fillBytes buf n =>
    have hn : IsU32 n := of_decide_eq_true hi
    have hdata : (commandData v (.fillBytes buf n) u).toNat = n := toNat_lengthData hn
    exact .inr (.inr ⟨hdata.trans_lt hn, hdata.trans (sum_count_byteBeats n u).symm⟩)

/-! #### The response of a word -/

theorem wellFormed_success (v : SampleVariant) {i : Instr} (hi : i.WellFormed) (u : Words) :
    Response.WellFormed v ⟨⟨.ok, commandData v i u⟩, commandBeats i u⟩ :=
  ⟨commandBeats_wellFormed i u, commandBeats_dropLast_full i u, commandData_isSuccess v hi u⟩

/-- An error has no beats: it is well formed when its detail is one of its status (R74, R200). -/
theorem wellFormed_illegalCommand (v : SampleVariant) (e : DecodeError) :
    Response.WellFormed v ⟨⟨.illegalCommand, BitVec.ofNat 64 e.detail⟩, []⟩ :=
  ⟨List.forall_mem_nil _, List.forall_mem_nil _, rfl, by cases e <;> decide⟩

theorem wellFormed_notSeeded (v : SampleVariant) : Response.WellFormed v ⟨⟨.notSeeded, 0⟩, []⟩ :=
  ⟨List.forall_mem_nil _, List.forall_mem_nil _, rfl, rfl⟩

/-- The details of the table of R203. -/
theorem argumentError_detail {i : Instr} {d : Nat} (h : argumentError i = some d) : d = 1 ∨ d = 2 ∨ d = 3 := by
  cases i with
  | seed | nextRaw | next | sample => cases h
  | nextMax | nextRange | fillInt | fillBytes =>
    simp [argumentError] at h
    omega

theorem wellFormed_invalidArgument (v : SampleVariant) {i : Instr} {d : Nat} (h : argumentError i = some d) :
    Response.WellFormed v ⟨⟨.invalidArgument, BitVec.ofNat 64 d⟩, []⟩ := by
  refine ⟨List.forall_mem_nil _, List.forall_mem_nil _, rfl, ?_⟩
  rcases argumentError_detail h with rfl | rfl | rfl <;> decide

/-- What a word does to the state words is what running it does. -/
theorem commandEffect_of_runWord {v : SampleVariant} {w : CmdWord} {e : Option Words} {t : State}
    (h : runWord v w { State.reset with engine := e } = .next t) : commandEffect v w e = (t.engine, t.response) := by
  unfold commandEffect
  rw [h]

/-- What executing a word can do to the state words, said once: an error changes none; SEED writes them; a valid draw
advances once per unit of output. Each gives a well-formed response. -/
theorem commandEffect_cases (v : SampleVariant) (w : CmdWord) (e : Option Words) :
    ∃ r, r.WellFormed v ∧
      (commandEffect v w e = (e, some r) ∨
       (∃ x, decode w = .ok (.seed x) ∧ commandEffect v w e = (some (seedWords x), some r)) ∨
       ∃ i u, e = some u ∧ commandEffect v w e = (some (advanceN (drawUnits i) u), some r)) := by
  cases hd : decode w with
  | error err => exact ⟨_, wellFormed_illegalCommand v err, .inl (commandEffect_of_runWord (runWord_error v hd _))⟩
  | ok i =>
    rcases execWith_cases v i { State.reset with engine := e } with
      ⟨x, rfl, h⟩ | ⟨-, -, h⟩ | ⟨-, u, d, -, hd', h⟩ | ⟨-, u, hu, -, h⟩ <;>
      have heffect := commandEffect_of_runWord ((runWord_ok v hd _).trans h)
    · exact ⟨_, wellFormed_success v (wellFormed_of_decode hd) Words.zero, .inr (.inl ⟨x, rfl, heffect⟩)⟩
    · exact ⟨_, wellFormed_notSeeded v, .inl heffect⟩
    · exact ⟨_, wellFormed_invalidArgument v hd', .inl heffect⟩
    · exact ⟨_, wellFormed_success v (wellFormed_of_decode hd) u, .inr (.inr ⟨i, u, hu, heffect⟩)⟩

/-- The response of a word is well formed (R72, R74). -/
theorem commandEffect_wellFormed {v : SampleVariant} {w : CmdWord} {e : Option Words} {q : Response}
    (hq : (commandEffect v w e).2 = some q) : q.WellFormed v := by
  obtain ⟨r, hr, h | ⟨x, -, h⟩ | ⟨i, u, -, h⟩⟩ := commandEffect_cases v w e <;>
  · rw [h] at hq
    obtain rfl := Option.some.inj hq
    exact hr

/-- Settles O41, by the cases of a step: only a granted command returns a response, and a reset forgets them all. -/
theorem stepKeepsResponsesWellFormed : Obligations.StepKeepsResponsesWellFormed := by
  rintro v s t ⟨hnone, hall⟩ h
  rcases stepWith_cases v s with ⟨-, he⟩ | ⟨r, w, rest, -, he⟩ | ⟨r, rest, -, -, he⟩ |
      ⟨r, rest, w, qs, q, -, -, hq, he⟩ | ⟨rest, -, he⟩ <;>
    obtain rfl := Host.Outcome.next.inj (he.symm.trans h)
  · exact ⟨hnone, hall⟩
  · exact ⟨hnone, hall⟩
  · exact ⟨hnone, hall⟩
  · exact ⟨rfl, List.forall_mem_append.mpr ⟨hall, List.forall_mem_singleton.mpr (commandEffect_wellFormed hq)⟩⟩
  · exact ⟨rfl, List.forall_mem_nil _⟩

/-- Settles O42: the reset state holds no response and has returned none. -/
theorem resetResponsesWellFormed : Obligations.ResetResponsesWellFormed :=
  fun _ => ⟨reset_response, List.forall_mem_nil _⟩

/-! #### SEEDED over every step (R23) -/

/-- A step that keeps the state words does not change SEEDED. -/
theorem no_seeded_change {s t : State} (h : t.engine = s.engine) {P Q : Prop} :
    (s.seeded = false → t.seeded = true → P) ∧ (s.seeded = true → t.seeded = false → Q) := by
  have hsame : t.seeded = s.seeded := congrArg Option.isSome h
  rw [hsame]
  cases s.seeded <;> simp

/-- Of the commands only SEED finds the block unseeded and leaves it seeded (R23). -/
theorem seed_of_commandEffect_some {v : SampleVariant} {w : CmdWord} {u : Words}
    (h : (commandEffect v w none).1 = some u) : ∃ x, decode w = .ok (.seed x) := by
  obtain ⟨_, -, he | ⟨x, hx, -⟩ | ⟨i, u, hu, -⟩⟩ := commandEffect_cases v w none
  · simp [he] at h
  · exact ⟨x, hx⟩
  · cases hu

/-- No command takes the state words from a seeded block (R23). -/
theorem eq_none_of_commandEffect_none {v : SampleVariant} {w : CmdWord} {e : Option Words}
    (h : (commandEffect v w e).1 = none) : e = none := by
  obtain ⟨_, -, he | ⟨x, -, he⟩ | ⟨i, u, -, he⟩⟩ := commandEffect_cases v w e <;> rw [he] at h
  · exact h
  · cases h
  · cases h

/-- Settles O4, by the cases of a step: only a granted command and a reset write the state words. -/
theorem onlySeedSetsAndOnlyResetClearsSeeded : Obligations.OnlySeedSetsAndOnlyResetClearsSeeded := by
  intro v s t h
  rcases stepWith_cases v s with ⟨-, he⟩ | ⟨r, w, rest, -, he⟩ | ⟨r, rest, -, -, he⟩ |
      ⟨r, rest, w, qs, q, hi, ht, -, he⟩ | ⟨rest, hi, he⟩ <;>
    obtain rfl := Host.Outcome.next.inj (he.symm.trans h)
  · exact no_seeded_change rfl
  · exact no_seeded_change rfl
  · exact no_seeded_change rfl
  · simp only [seeded_eq_false, seeded_eq_true]
    refine ⟨fun hs ⟨u, hu⟩ => ?_, fun ⟨u, hu⟩ hnone => ?_⟩
    · rw [hs] at hu
      obtain ⟨x, hx⟩ := seed_of_commandEffect_some hu
      exact ⟨r, rest, w, qs, x, hi, ht, hx⟩
    · rw [eq_none_of_commandEffect_none hnone] at hu
      cases hu
  · exact ⟨fun _ hseeded => (nomatch hseeded), fun _ _ => ⟨rest, hi⟩⟩

end Sys2Proof.Machine

/-! ### Proofs of the statements about SEED, the reset words and SAMPLE_VARIANT (R25, R31, R49, R101) -/

namespace Sys2Proof.Machine

/-- Settles O11: SEED leaves words and a response that do not depend on the state before. -/
theorem seedForgetsThePriorState : Obligations.SeedForgetsThePriorState :=
  fun x s s' => ⟨_, _, exec_seed x s, exec_seed x s', rfl, rfl, exec_seed x _⟩

/-- Settles O13: the reset state has no words. -/
theorem resetEngineNotAllZero : Obligations.ResetEngineNotAllZero := fun _ hw => nomatch hw

/-- Settles O27: SAMPLE is the one command with an arm of its own in `execWith`. -/
theorem onlySampleReadsTheVariant : Obligations.OnlySampleReadsTheVariant :=
  ⟨fun v _ s hi => execWith_of_ne_sample v hi s, execWith_config, fun _ => rfl⟩

end Sys2Proof.Machine

/-! ### Proofs of the statements about the command port (20_memory.md R47 to R52; 30_encoding.md R68) -/

namespace Sys2Proof.Machine

/-! #### The step -/

/-- Settles O40: each case of a step names the next state. -/
theorem everyStepGoesOn : Obligations.EveryStepGoesOn := by
  intro v s
  rcases stepWith_cases v s with ⟨-, h⟩ | ⟨_, _, _, -, h⟩ | ⟨_, _, -, -, h⟩ | ⟨_, _, _, _, _, -, -, -, h⟩ | ⟨_, -, h⟩ <;>
    exact ⟨_, h⟩

/-- A granted step runs the requester's oldest word on the state without that word and the event, and returns the response
(R47, R50, R68). -/
theorem stepWith_grant (v : SampleVariant) {s t : State} {r : ℕ} {rest : List Input} {qs : List Request} {w : CmdWord}
    {q : Response} (hi : s.inputs = .grant r :: rest) (ht : takeRequest r s.pending = some (w, qs))
    (hrun : runWord v w { s with inputs := rest, pending := qs } = .next t) (hq : t.response = some q) :
    stepWith v s = .next { t with response := none, delivered := t.delivered ++ [⟨r, q⟩] } := by
  simp [stepWith, hi, accept, grant, ht, hrun, finishCommand, returnResponse, hq]

/-- Settles O52: a word that decodes runs its command. -/
theorem stepRunsTheDecodedCommand : Obligations.StepRunsTheDecodedCommand := by
  intro s t r rest before after w i q hi hp hb hdec hexec hq
  have ht : takeRequest r s.pending = some (w, before ++ after) := hp ▸ takeRequest_append after w hb
  exact stepWith_grant _ hi ht ((runWord_ok _ hdec _).trans ((execWith_config i _).trans hexec)) hq

/-- Settles O53: a word that does not decode raises ILLEGAL_COMMAND. -/
theorem illegalWordsAreReported : Obligations.IllegalWordsAreReported := by
  intro v s r rest before after w e hi hp hb hdec
  have ht : takeRequest r s.pending = some (w, before ++ after) := hp ▸ takeRequest_append after w hb
  rw [stepWith_grant v hi ht (runWord_error v hdec _) (raise_response ..)]
  cases e <;> rfl

/-- A table word that reads as a command is a word that decodes to it. -/
theorem decode_of_decodeTableWord {nbits w : ℕ} {i : Instr} (h : decodeTableWord nbits w = some i) :
    decode (wordOfTable nbits w) = .ok i := by
  obtain ⟨-, h⟩ := Option.ite_none_right_eq_some.mp h
  cases hdec : decode (wordOfTable nbits w) with
  | error e => simp [hdec, Except.toOption] at h
  | ok j => simpa [hdec, Except.toOption] using h

/-- Settles O54: the fetched word stands in front of the pending commands, and its grant in front of the events. -/
theorem fetchWordRunsNext : Obligations.FetchWordRunsNext := by
  intro s t nbits w i q hdec hexec hq
  exact stepRunsTheDecodedCommand _ t 0 s.inputs [] s.pending _ i q rfl rfl (List.forall_mem_nil _)
    (decode_of_decodeTableWord hdec) hexec hq

/-! #### Streams of commands (R50) -/

theorem streamOf_append (r : ℕ) (qs qs' : List Request) : streamOf r (qs ++ qs') = streamOf r qs ++ streamOf r qs' :=
  List.filter_append ..

theorem streamOf_cons_self (r : ℕ) (w : CmdWord) (qs : List Request) :
    streamOf r (⟨r, w⟩ :: qs) = ⟨r, w⟩ :: streamOf r qs := by
  simp [streamOf]

/-- Putting the command taken in front of the others gives every requester's stream back. -/
theorem streamOf_takeRequest {r : ℕ} {qs rest : List Request} {w : CmdWord} (h : takeRequest r qs = some (w, rest))
    (r' : ℕ) : streamOf r' (⟨r, w⟩ :: rest) = streamOf r' qs := by
  obtain ⟨before, after, rfl, rfl, hb⟩ := takeRequest_some h
  by_cases hr : r = r'
  · subst hr
    have hnone : streamOf r before = [] := List.filter_eq_nil_iff.mpr (by simpa using hb)
    simp only [streamOf_cons_self, streamOf_append, hnone, List.nil_append]
  · simp [streamOf, hr]

/-- A requester whose stream begins with a command has it taken. -/
theorem takeRequest_of_streamOf_eq_cons {r : ℕ} {qs tail : List Request} {w : CmdWord}
    (h : streamOf r qs = ⟨r, w⟩ :: tail) : ∃ rest, takeRequest r qs = some (w, rest) := by
  cases ht : takeRequest r qs with
  | none =>
    have hnone : streamOf r qs = [] := List.filter_eq_nil_iff.mpr (by simpa using takeRequest_none.mp ht)
    simp [hnone] at h
  | some p =>
    obtain ⟨w', rest⟩ := p
    have hstream := streamOf_takeRequest ht r
    rw [streamOf_cons_self, h] at hstream
    obtain ⟨⟨-, rfl⟩, -⟩ : (r = r ∧ w' = w) ∧ _ := by simpa using hstream
    exact ⟨rest, rfl⟩

/-- When no requester has a stream, nothing is pending. -/
theorem eq_nil_of_streamOf_eq_nil {qs : List Request} (h : ∀ r, streamOf r qs = []) : qs = [] := by
  cases qs with
  | nil => rfl
  | cons q qs => simpa [streamOf] using h q.requester

/-! #### Serial execution (R50, R68) -/

/-- The first command of a serial execution, whose response is `q`. -/
theorem serveAll_cons {v : SampleVariant} {r : ℕ} {w : CmdWord} {e : Option Words} {q : Response}
    (hq : (commandEffect v w e).2 = some q) (qs : List Request) :
    serveAll v (⟨r, w⟩ :: qs) e =
      ((serveAll v qs (commandEffect v w e).1).1, ⟨r, q⟩ :: (serveAll v qs (commandEffect v w e).1).2) := by
  simp [serveAll, hq]

/-- One list of commands after the other. -/
theorem serveAll_append (v : SampleVariant) (qs qs' : List Request) (e : Option Words) :
    serveAll v (qs ++ qs') e =
      ((serveAll v qs' (serveAll v qs e).1).1, (serveAll v qs e).2 ++ (serveAll v qs' (serveAll v qs e).1).2) := by
  induction qs generalizing e with
  | nil => rfl
  | cons q qs ih => simp [serveAll, ih]

/-- A granted step, by what the word does to the state words. -/
theorem stepWith_serves (v : SampleVariant) {s : State} {r : ℕ} {rest : List Input} {qs : List Request} {w : CmdWord}
    (hi : s.inputs = .grant r :: rest) (ht : takeRequest r s.pending = some (w, qs)) :
    ∃ q, (commandEffect v w s.engine).2 = some q ∧
      stepWith v s = .next { s with
        engine := (commandEffect v w s.engine).1, response := none, pending := qs
        delivered := s.delivered ++ [⟨r, q⟩], inputs := rest } := by
  obtain ⟨q, hrun, hq⟩ := runWord_next v w { s with inputs := rest, pending := qs }
  exact ⟨q, hq, stepWith_grant v hi ht hrun rfl⟩

/-- Granting the port in an order that keeps each requester's stream serves the pending commands in that order (R51). -/
theorem runWith_grants (v : SampleVariant) {order : List Request} {s : State} (hnone : s.response = none)
    (hstreams : ∀ r, streamOf r order = streamOf r s.pending)
    (hi : s.inputs = order.map fun q => .grant q.requester) :
    runWith v order.length s = .next { s with
      engine := (serveAll v order s.engine).1
      pending := []
      delivered := s.delivered ++ (serveAll v order s.engine).2
      inputs := [] } := by
  induction order generalizing s with
  | nil =>
    have hpending : s.pending = [] := eq_nil_of_streamOf_eq_nil fun r => (hstreams r).symm
    obtain ⟨engine, response, pending, delivered, inputs⟩ := s
    obtain rfl : pending = [] := hpending
    obtain rfl : inputs = [] := hi
    simp [runWith, serveAll]
  | cons q order ih =>
    obtain ⟨r, w⟩ := q
    obtain ⟨rest, ht⟩ := takeRequest_of_streamOf_eq_cons ((hstreams r).symm.trans (streamOf_cons_self r w order))
    obtain ⟨q, hq, hstep⟩ := stepWith_serves v hi ht
    have hrest (r' : ℕ) : streamOf r' order = streamOf r' rest := by
      have hcons : streamOf r' ([⟨r, w⟩] ++ order) = streamOf r' ([⟨r, w⟩] ++ rest) :=
        (hstreams r').trans (streamOf_takeRequest ht r').symm
      rw [streamOf_append, streamOf_append] at hcons
      exact List.append_cancel_left hcons
    rw [List.length_cons, runWith_succ hstep, ih rfl hrest rfl, serveAll_cons hq]
    simp [hnone]

/-- Settles O55: the grants name the requesters of the order, one after the other. -/
theorem everyInterleavingIsAdmitted : Obligations.EveryInterleavingIsAdmitted :=
  fun v _ _ hnone hstreams => runWith_grants v hnone hstreams rfl

/-! #### Every run is a serial execution (R50, R52) -/

/-- From `s`, while `events` happened, to `t`: an order of commands was served, and that order followed by what is pending
keeps each requester's stream. -/
def IsSerialRun (v : SampleVariant) (s : State) (events : List Input) (t : State) : Prop :=
  ∃ order : List Request,
    t.engine = (serveAll v order s.engine).1 ∧ t.delivered = s.delivered ++ (serveAll v order s.engine).2 ∧
    ∀ r, streamOf r (order ++ t.pending) = streamOf r (s.pending ++ presented events)

/-- Where no command is served, only the commands presented are new. -/
theorem isSerialRun_of_none_served {v : SampleVariant} {s t : State} {events : List Input} (he : t.engine = s.engine)
    (hd : t.delivered = s.delivered) (hp : t.pending = s.pending ++ presented events) : IsSerialRun v s events t :=
  ⟨[], he, by simp [hd, serveAll], fun r => by simp [hp]⟩

theorem IsSerialRun.trans {v : SampleVariant} {s u t : State} {es es' : List Input} (h : IsSerialRun v s es u)
    (h' : IsSerialRun v u es' t) : IsSerialRun v s (es ++ es') t := by
  obtain ⟨order, he, hd, hs⟩ := h
  obtain ⟨order', he', hd', hs'⟩ := h'
  rw [he] at he' hd'
  refine ⟨order ++ order', by rw [serveAll_append, he'], by rw [serveAll_append, hd', hd, List.append_assoc], fun r => ?_⟩
  have hpresented : presented (es ++ es') = presented es ++ presented es' := List.filterMap_append
  calc streamOf r (order ++ order' ++ t.pending)
    _ = streamOf r order ++ streamOf r (order' ++ t.pending) := by rw [List.append_assoc, streamOf_append]
    _ = streamOf r (order ++ u.pending) ++ streamOf r (presented es') := by
      rw [hs', streamOf_append, streamOf_append, List.append_assoc]
    _ = streamOf r (s.pending ++ presented (es ++ es')) := by
      rw [hs, hpresented, ← streamOf_append, List.append_assoc]

/-- A step takes one event off the list, and short of a reset it serves one command or none. -/
theorem isSerialRun_step {v : SampleVariant} {s t : State} (hreset : ∀ e ∈ s.inputs.take 1, e ≠ .reset)
    (h : stepWith v s = .next t) : t.inputs = s.inputs.drop 1 ∧ IsSerialRun v s (s.inputs.take 1) t := by
  rcases stepWith_cases v s with ⟨hi, he⟩ | ⟨r, w, rest, hi, he⟩ | ⟨r, rest, hi, -, he⟩ |
      ⟨r, rest, w, qs, q, hi, ht, hq, he⟩ | ⟨rest, hi, -⟩ <;>
    rw [hi]
  · obtain rfl := Host.Outcome.next.inj (he.symm.trans h)
    exact ⟨hi, isSerialRun_of_none_served rfl rfl (by simp [presented])⟩
  · obtain rfl := Host.Outcome.next.inj (he.symm.trans h)
    exact ⟨rfl, isSerialRun_of_none_served rfl rfl rfl⟩
  · obtain rfl := Host.Outcome.next.inj (he.symm.trans h)
    exact ⟨rfl, isSerialRun_of_none_served rfl rfl (by simp [presented])⟩
  · obtain rfl := Host.Outcome.next.inj (he.symm.trans h)
    refine ⟨rfl, [⟨r, w⟩], ?_, ?_, fun r' => ?_⟩
    · rw [serveAll_cons hq]; rfl
    · rw [serveAll_cons hq]; rfl
    · simpa [presented] using streamOf_takeRequest ht r'
  · exact absurd rfl (hreset .reset (by simp [hi]))

/-- Settles O56, step after step. -/
theorem everyRunIsASerialOrder : Obligations.EveryRunIsASerialOrder := by
  intro v k s t hreset h
  change IsSerialRun v s (s.inputs.take k) t
  induction k generalizing s with
  | zero =>
    obtain rfl := Host.Outcome.next.inj h
    exact isSerialRun_of_none_served rfl rfl (by simp [presented])
  | succ k ih =>
    obtain ⟨u, hu⟩ := everyStepGoesOn v s
    rw [runWith_succ hu] at h
    rw [Nat.add_comm, List.take_add, List.forall_mem_append] at hreset
    obtain ⟨hfirst, hlater⟩ := hreset
    obtain ⟨hinputs, hstep⟩ := isSerialRun_step hfirst hu
    rw [← hinputs] at hlater
    rw [Nat.add_comm, List.take_add, ← hinputs]
    exact hstep.trans (ih u hlater h)

end Sys2Proof.Machine

/-! ### Proofs of the statements about rounding (00_scope.md R9, 41_scalar_outputs.md R127, R128) -/

namespace Sys2Proof.Machine

/-- Settles O20: the rounding of R128 on the integers themselves, without scaling. -/
theorem roundingIsNearestTiesToEven : Obligations.RoundingIsNearestTiesToEven := by
  intro p hp
  rw [Int.abs_eq_natAbs] at hp
  simpa using isRne64_rne64 (p := p) (e := 0) (by omega) (by norm_num) (by norm_num)

/-! #### RNE64 of an integer is one number (R9) -/

/-- A binary64 number has no other rounding than itself (R9). -/
theorem IsRne64.eq_self {x q : ℚ} (h : IsRne64 x q) (hx : IsBinary64 x) : q = x := by
  have hzero : |x - q| ≤ 0 := by simpa using h.nearest x hx
  exact (sub_eq_zero.mp (abs_nonpos_iff.mp hzero)).symm

/-- A number between two neighbours rounds to one of them (R9). -/
theorem IsRne64.eq_or_eq {x a b q : ℚ} (h : IsRne64 x q) (ha : IsBinary64 a) (hb : IsBinary64 b) (hax : a ≤ x)
    (hxb : x ≤ b) (hgap : ∀ y, IsBinary64 y → y ≤ a ∨ b ≤ y) : q = a ∨ q = b := by
  rcases hgap q h.binary64 with hqa | hbq
  · left
    have hnear := h.nearest a ha
    rw [abs_of_nonneg (by linarith), abs_of_nonneg (by linarith)] at hnear
    linarith
  · right
    have hnear := h.nearest b hb
    rw [abs_of_nonpos (by linarith), abs_of_nonpos (by linarith)] at hnear
    linarith

/-- Two roundings that differ are equally near, so both have an even significand (R9). -/
theorem IsRne64.even_of_ne {x q q' : ℚ} (h : IsRne64 x q) (h' : IsRne64 x q') (hne : q' ≠ q) : HasEvenSignificand q :=
  h.tiesToEven q' h'.binary64 hne (le_antisymm (h'.nearest q h.binary64) (h.nearest q' h'.binary64))

/-- Of two forms of one number, a significand of at least 53 bits has no greater exponent than one of at most 53. -/
theorem exponent_le {m n : ℕ} {j k : ℤ} (hm : 2 ^ 52 ≤ m) (hn : n < 2 ^ 53) (h : (m : ℚ) * 2 ^ k = n * 2 ^ j) : k ≤ j := by
  by_contra hlt
  have hmq : (2 ^ 52 : ℚ) ≤ m := by exact_mod_cast hm
  have hnq : (n : ℚ) < 2 ^ 53 := by exact_mod_cast hn
  have hdouble : (2 : ℚ) ^ j * 2 ≤ 2 ^ k := by
    rw [← zpow_add_one₀ two_ne_zero]
    exact zpow_le_zpow_right₀ one_le_two (by omega)
  have hpos : (0 : ℚ) < 2 ^ j := by positivity
  have hlarge : (2 ^ 52 : ℚ) * (2 ^ j * 2) ≤ m * 2 ^ k := mul_le_mul hmq hdouble (by positivity) (by positivity)
  have hsmall : (n : ℚ) * 2 ^ j < 2 ^ 53 * 2 ^ j := mul_lt_mul_of_pos_right hnq hpos
  linarith

/-- A number has one significand of 53 bits, so it is even in every form or in none (R9). -/
theorem even_of_hasEvenSignificand {h : ℕ} {j : ℤ} (hlow : 2 ^ 52 ≤ h) (hhigh : h < 2 ^ 53)
    (heven : HasEvenSignificand ((h : ℚ) * 2 ^ j)) : h % 2 = 0 := by
  obtain ⟨m, k, hmlow, hmhigh, hm, heq⟩ := heven
  rw [Int.abs_eq_natAbs] at hmlow hmhigh
  have habs : (h : ℚ) * 2 ^ j = m.natAbs * 2 ^ k := by
    rw [← abs_of_nonneg (show 0 ≤ (h : ℚ) * 2 ^ j by positivity), heq, abs_mul,
      abs_of_pos (show (0 : ℚ) < 2 ^ k by positivity), Nat.cast_natAbs, Int.cast_abs]
  obtain rfl : j = k := le_antisymm (exponent_le hlow (by omega) habs) (exponent_le (by omega) hhigh habs.symm)
  have hsame : h = m.natAbs := by
    exact_mod_cast mul_right_cancel₀ (by positivity) habs
  rw [hsame]
  exact Nat.even_iff.mp (Int.natAbs_even.mpr hm)

/-- A number of more than 53 bits stands between two neighbours, and not both have an even significand (R9, R128). -/
theorem exists_neighbours {p : ℕ} (hp : 2 ^ 53 ≤ p) (hp' : p < 2 ^ 64) :
    ∃ a b : ℚ, IsBinary64 a ∧ IsBinary64 b ∧ a ≤ p ∧ (p : ℚ) ≤ b ∧ (∀ y, IsBinary64 y → y ≤ a ∨ b ≤ y) ∧
      ¬ (HasEvenSignificand a ∧ HasEvenSignificand b) := by
  obtain ⟨d, h, rem, hd, -, hlow, hhigh, hsplit, hrem, -⟩ := rne53_cases hp
  obtain ⟨m, k, hmk, -, hmhigh, hk, -⟩ := succ_significand hlow hhigh d
  have hd11 : d ≤ 11 := by
    have := bitLength_le hp'
    omega
  have hupper : (h + 1) * 2 ^ d = h * 2 ^ d + 2 ^ d := by ring
  have hcast (n : ℕ) : (n : ℚ) * 2 ^ (d : ℤ) = ((n * 2 ^ d : ℕ) : ℚ) := by
    rw [zpow_natCast]
    push_cast
    ring
  refine ⟨(h : ℚ) * 2 ^ (d : ℤ), ((h + 1 : ℕ) : ℚ) * 2 ^ (d : ℤ), ?_, ?_, ?_, ?_,
    fun y hy => binary64_le_or_ge hlow d hy, ?_⟩
  · simpa using isBinary64_scaled (k := 0) (e := d) hhigh (by omega) (by omega)
  · rw [hcast, hmk]
    simpa using isBinary64_scaled (k := k) (e := 0) hmhigh (by omega) (by omega)
  · rw [hcast]
    exact_mod_cast (by omega : h * 2 ^ d ≤ p)
  · rw [hcast]
    exact_mod_cast (by omega : p ≤ (h + 1) * 2 ^ d)
  · rintro ⟨ha, hb⟩
    have hheven := even_of_hasEvenSignificand hlow hhigh ha
    have hsucc := even_of_hasEvenSignificand (by omega) (by omega) hb
    omega

/-- RNE64 of a natural number below 2^64 is one number (R9). -/
theorem IsRne64.unique_natCast {p : ℕ} (hp : p < 2 ^ 64) {q q' : ℚ} (h : IsRne64 (p : ℚ) q) (h' : IsRne64 (p : ℚ) q') :
    q = q' := by
  by_cases hsmall : p < 2 ^ 53
  · have hself : IsBinary64 (p : ℚ) := by
      simpa using isBinary64_scaled (k := 0) (e := 0) hsmall (by norm_num) (by norm_num)
    rw [h.eq_self hself, h'.eq_self hself]
  · obtain ⟨a, b, ha, hb, hax, hxb, hgap, hodd⟩ := exists_neighbours (not_lt.mp hsmall) hp
    by_contra hne
    have heven := h.even_of_ne h' (Ne.symm hne)
    have heven' := h'.even_of_ne h hne
    rcases h.eq_or_eq ha hb hax hxb hgap with rfl | rfl <;>
      rcases h'.eq_or_eq ha hb hax hxb hgap with rfl | rfl
    · exact hne rfl
    · exact hodd ⟨heven, heven'⟩
    · exact hodd ⟨heven', heven⟩
    · exact hne rfl

/-- The same for either sign (R9). -/
theorem IsRne64.unique_intCast {p : ℤ} (hp : |p| < 2 ^ 64) {q q' : ℚ} (h : IsRne64 (p : ℚ) q) (h' : IsRne64 (p : ℚ) q') :
    q = q' := by
  obtain ⟨a, rfl | rfl⟩ := p.eq_nat_or_neg
  · have ha : a < 2 ^ 64 := by simpa using hp
    exact IsRne64.unique_natCast ha (by simpa using h) (by simpa using h')
  · have ha : a < 2 ^ 64 := by simpa using hp
    exact neg_injective (IsRne64.unique_natCast ha (by simpa using h.neg) (by simpa using h'.neg))

/-! #### BOUNDED -/

/-- The products BOUNDED rounds (R127). -/
theorem abs_product_lt_two_pow_64 (raw : Word) {n : ℤ} (hlow : -2 ^ 31 ≤ n) (hhigh : n ≤ 2 ^ 32) :
    |(raw.toNat : ℤ) * n| < 2 ^ 64 := by
  have hraw : (raw.toNat : ℤ) < 2 ^ 32 := by exact_mod_cast raw.isLt
  have hn : |n| ≤ 2 ^ 32 := abs_le.mpr ⟨by omega, hhigh⟩
  rw [abs_mul, Nat.abs_cast]
  nlinarith [abs_nonneg n]

/-- Settles O21: the model's RNE64 rounds the product, and no other number does. -/
theorem boundedFloorsTheRoundedProduct : Obligations.BoundedFloorsTheRoundedProduct := by
  intro raw n q hlow hhigh hq
  have hprod := abs_product_lt_two_pow_64 raw hlow hhigh
  have hcast : (raw.toNat : ℚ) * n = (((raw.toNat : ℤ) * n : ℤ) : ℚ) := by push_cast; rfl
  rw [hcast] at hq
  obtain rfl := hq.unique_intCast hprod (roundingIsNearestTiesToEven _ hprod)
  rw [bounded]
  exact_mod_cast (Rat.floor_intCast_div_natCast (rne64 (raw.toNat * n)) (2 ^ 32)).symm

end Sys2Proof.Machine
